-- ==== Sys2Proof/Word.lean ====
section
/-! DEFINITION. The bit-vector types of the block: byte, command word, record address. -/

namespace Sys2Proof

/-- A byte of the record, of a status register or of the response port (20_memory.md R40: "A byte is 8 bits"). -/
abbrev Byte := BitVec 8

/-- A command word, a value on the command port with no byte order (30_encoding.md R60). Bit 0 is the least significant (R10). -/
abbrev CmdWord := BitVec 32

/-- A record address: 7 bits, every one of the 128 values backed (20_memory.md R40). -/
abbrev Addr := BitVec 7

end Sys2Proof
end

