-- ==== Sys2Proof/Syntax.lean ====
section
/-! DEFINITION. The nine commands of the block, one constructor per row of spec/opcode_table.json, operands in the assembler's order
(30_encoding.md R72), each an unsigned field of the width R62 to R67 give it. -/

namespace Sys2Proof

/-- One command of the block (30_encoding.md R61). -/
inductive Instr where
  /-- `clr`: zero the record (40_record_access.md R80). -/
  | clr
  /-- `stb addr, val`: store one byte (R81). -/
  | stb (addr : BitVec 7) (val : BitVec 8)
  /-- `ldb addr`: load one byte to the response port (R82). -/
  | ldb (addr : BitVec 7)
  /-- `st.set slot, hsize, vfreq, aspect`: pack a standard timing (41_standard_timing.md R90). -/
  | stSet (slot : BitVec 3) (hsize : BitVec 12) (vfreq : BitVec 8) (aspect : BitVec 2)
  /-- `st.unset slot`: mark a standard-timing slot unused (R91). -/
  | stUnset (slot : BitVec 3)
  /-- `mfg l1, l2, l3`: pack the manufacturer code (42_vendor_gamma.md R100). -/
  | mfg (l1 l2 l3 : BitVec 5)
  /-- `gamma g`: pack the gamma byte, `g` in units of 0.001 (R101). -/
  | gamma (g : BitVec 16)
  /-- `csum`: finalize the checksum (43_checksum.md R110). -/
  | csum
  /-- `rdsr csr`: read a status register to the response port; the field is 8 bits wide, 0 and 1 legal (40_record_access.md R83,
  30_encoding.md R67). -/
  | rdsr (csr : BitVec 8)
  deriving DecidableEq, Repr

end Sys2Proof
end

