-- ==== Sys2Proof/WellFormed.lean ====
section
/-! DEFINITION. Which terms of Instr are commands. Every operand's width is its field's, so the one check left is the status-register number:
`rdsr` with `csr >= 2` spells a reserved word (30_encoding.md R67, R68). An operand that fits its field but is outside its legal range (R72:
`hsize` 248) is well-formed: that word exists, and faults. -/

namespace Sys2Proof

/-- `csr` names a status register: 0 is STATUS, 1 is ACC (40_record_access.md R83). -/
def csrLegal (csr : BitVec 8) : Bool := csr.toNat < 2

/-- The term spells a command word that is not reserved (30_encoding.md R68). -/
def Instr.wf : Instr → Bool
  | .clr => true
  | .stb _ _ => true
  | .ldb _ => true
  | .stSet _ _ _ _ => true
  | .stUnset _ => true
  | .mfg _ _ _ => true
  | .gamma _ => true
  | .csum => true
  | .rdsr csr => csrLegal csr

end Sys2Proof
end

