-- ==== Sys2Proof/Decode.lean ====
section
/-! DEFINITION. Decoding a command word, total on all 2^32 words and rejecting by name (30_encoding.md R60 to R70), and the encoder beside it. -/

namespace Sys2Proof

/-- Why a word is reserved (30_encoding.md R68). The block tells the three apart nowhere: each raises ILLEGAL_CMD. -/
inductive Reserved where
  /-- `op` is 0x0 or 0xA to 0xF. -/
  | unassignedOp
  /-- `op` is assigned and a reserved bit of its format is 1. -/
  | reservedBit
  /-- `rdsr` with `csr >= 2`. -/
  | reservedCsr
  deriving DecidableEq, Repr

/-- A row of the opcode table: the word is the row's command when its masked bits are the row's match (30_encoding.md R69). -/
structure OpRow where
  pattern : CmdWord
  mask : CmdWord
  deriving DecidableEq, Repr

/-- The row accepts the word: `(w & mask) = match` (R69). -/
def OpRow.accepts (r : OpRow) (w : CmdWord) : Bool := w &&& r.mask == r.pattern

/-! The nine rows of R69's table, in its order. -/

def rowClr : OpRow := ⟨0x10000000#32, 0xFFFFFFFF#32⟩
def rowStb : OpRow := ⟨0x20000000#32, 0xFFFF8000#32⟩
def rowLdb : OpRow := ⟨0x30000000#32, 0xFFFF80FF#32⟩
def rowStSet : OpRow := ⟨0x40000000#32, 0xFE000000#32⟩
def rowStUnset : OpRow := ⟨0x50000000#32, 0xFE3FFFFF#32⟩
def rowMfg : OpRow := ⟨0x60000000#32, 0xFFFF8000#32⟩
def rowGamma : OpRow := ⟨0x70000000#32, 0xFFFF0000#32⟩
def rowCsum : OpRow := ⟨0x80000000#32, 0xFFFFFFFF#32⟩
def rowRdsr : OpRow := ⟨0x90000000#32, 0xFFFFFFFE#32⟩

/-- The opcode table (30_encoding.md R69). -/
def opTable : List OpRow :=
  [rowClr, rowStb, rowLdb, rowStSet, rowStUnset, rowMfg, rowGamma, rowCsum, rowRdsr]

/-- The opcode field, bits 31:28 (R60). -/
def opField (w : CmdWord) : BitVec 4 := w.extractLsb' 28 4

/-- The name under which a word that no row accepts is rejected (R68). -/
def reservedName (w : CmdWord) : Reserved :=
  if opField w = 0#4 ∨ 10 ≤ (opField w).toNat then .unassignedOp
  else if opField w = 9#4 ∧ w.extractLsb' 8 20 = 0#20 then .reservedCsr
  else .reservedBit

/-- The command a word spells, or the name of the reason it is reserved (30_encoding.md R69, operands cut at the bit positions of R62 to R67). -/
def decode (w : CmdWord) : Except Reserved Instr :=
  if rowClr.accepts w then .ok .clr
  else if rowStb.accepts w then .ok (.stb (w.extractLsb' 8 7) (w.extractLsb' 0 8))
  else if rowLdb.accepts w then .ok (.ldb (w.extractLsb' 8 7))
  else if rowStSet.accepts w then
    .ok (.stSet (w.extractLsb' 22 3) (w.extractLsb' 0 12) (w.extractLsb' 12 8) (w.extractLsb' 20 2))
  else if rowStUnset.accepts w then .ok (.stUnset (w.extractLsb' 22 3))
  else if rowMfg.accepts w then .ok (.mfg (w.extractLsb' 10 5) (w.extractLsb' 5 5) (w.extractLsb' 0 5))
  else if rowGamma.accepts w then .ok (.gamma (w.extractLsb' 0 16))
  else if rowCsum.accepts w then .ok .csum
  else if rowRdsr.accepts w then .ok (.rdsr (w.extractLsb' 0 8))
  else .error (reservedName w)

/-- An operand at its place in the word: bit 0 of the field is bit `lo` of the word (30_encoding.md R62 to R67). -/
def place {n : Nat} (field : BitVec n) (lo : Nat) : CmdWord := field.setWidth 32 <<< lo

/-- The word of a command, by the formula its own rule gives (R80 to R83, R90, R91, R100, R101, R110); reserved bits are 0 (R60). -/
def encode : Instr → CmdWord
  | .clr => 0x10000000#32
  | .stb addr val => 0x20000000#32 ||| place addr 8 ||| place val 0
  | .ldb addr => 0x30000000#32 ||| place addr 8
  | .stSet slot hsize vfreq aspect =>
    0x40000000#32 ||| place slot 22 ||| place aspect 20 ||| place vfreq 12 ||| place hsize 0
  | .stUnset slot => 0x50000000#32 ||| place slot 22
  | .mfg l1 l2 l3 => 0x60000000#32 ||| place l1 10 ||| place l2 5 ||| place l3 0
  | .gamma g => 0x70000000#32 ||| place g 0
  | .csum => 0x80000000#32
  | .rdsr csr => 0x90000000#32 ||| place csr 0

/-- The command word whose bits are the low `nbits` bits of `w`, every bit above them 0; bit 0 is the least significant, as in
spec/opcode_table.json (R10). The word is a value on a port, so no byte order enters (log 14). -/
def tableWord (nbits w : Nat) : CmdWord := BitVec.ofNat 32 (w % 2 ^ nbits)

/-- What the decoder reads from the word whose bits are `w`, numbered as the opcode table numbers them. -/
def decodeTableWord (nbits w : Nat) : Option Instr :=
  match decode (tableWord nbits w) with
  | .ok i => some i
  | .error _ => none

end Sys2Proof
end

