-- ==== Sys2Proof/Config.lean ====
section
/-! DEFINITION. What the spec leaves open for the block: one free value, the content of a byte never written since reset.
Everything else 00_scope.md R9 lists for the block is fixed there and stands in Machine/Operands.lean; its host-side OPEN parameters are
the structure HostParams of Machine/HostProcedures.lean. -/

namespace Sys2Proof

/-- FREE VALUE (10_state.md R29; 93_implementation_defined.md U1: "any value, drawn at each read; do not assume two reads agree"):
what a read of the never-written byte `a` gives when the command with sequence index `n` reads it. No body is given, so no proof can see
a value of it; the index differs for every command, so two reads need not agree. Log entry 3. -/
opaque Config.freeByte (n : Nat) (a : Addr) : Byte

end Sys2Proof
end

