-- ==== Sys2Proof/Machine/State.lean ====
section
/-! DEFINITION. The state of the block as plain data, the two types of reasons a step could stop, and the state right after reset. -/

namespace Sys2Proof.Machine

/-- The record: (address, byte) pairs, addresses strictly rising. An address that is not listed has not been written since reset and holds
no value (10_state.md R29; Machine/Ops.lean, Memory.unlisted). -/
abbrev Memory := List Host.Cell

/-- What the host can do to the block between two commands (00_scope.md R6, R14): give a command word, or assert reset (70 R160, R161). -/
inductive Input where
  | command (w : CmdWord)
  | reset
  deriving DecidableEq, Repr

/-- The state of the block. `mem`, `status` and `acc` are all the state the spec gives it (10_state.md R23). `inputs`, `resp` and `index` are
the model's own: the input and the output of R6's step, which has the form `State -> CommandWord -> State x Option Byte`, and R25's
bookkeeping index. -/
structure State where
  /-- `REC`, 128 bytes (R20). -/
  mem : Memory
  /-- `STATUS`, status register 0: FAULT in bit 0, CAUSE in bits 3:1, bits 7:4 hardwired 0 (R21). -/
  status : Byte
  /-- `ACC`, status register 1: the sum the last performed `csum` took (R22). -/
  acc : Byte
  /-- What the host is going to give the block, in arrival order (log 1). -/
  inputs : List Input
  /-- What the response port shows after the latest step; never read by the block (R23; log 2). -/
  resp : Option Byte
  /-- How many command words have been given since power-on (R25; log 4). -/
  index : Nat
  deriving DecidableEq, Repr

/-- Reasons the machine could stop with a fault: none. What the spec calls a fault is a next state with STATUS written (60_exceptions.md
R141), decoding is total (30 R68), and no address outside the record can be formed (20 R40). Log 5. -/
inductive Fault where
  deriving DecidableEq, Repr

/-- Reasons the model refuses a command. -/
inductive Refusal where
  /-- Raised by an arm of `exec` whose command has no meaning yet; safe (the model stops where the hardware goes on). No arm raises it. -/
  | notModelled (mnemonic : String)
  deriving DecidableEq, Repr

/-- The block right after reset, and at power-on (70_reset_and_hazards.md R160; 10_state.md R29): STATUS 0x00, ACC 0x00, no byte of the
record specified, waiting for the host's first command word. `inputs`, `resp` and `index` are the model's own (logs 1, 2, 4). -/
def State.reset : State :=
  { mem := [], status := 0x00#8, acc := 0x00#8, inputs := [], resp := none, index := 0 }

end Sys2Proof.Machine
end

