-- ==== Sys2Proof/Machine/Flags.lean ====
section
/-! DEFINITION. STATUS and its fields, the only flag the block has (10_state.md R21, R26), and the cause codes (60_exceptions.md R140). -/

namespace Sys2Proof.Machine

/-- The causes a fault can have (60_exceptions.md R140). -/
inductive Cause where
  | illegalCmd
  | hsizeRange
  | vfreqRange
  | gammaRange
  deriving DecidableEq, Repr

/-- The value `STATUS.CAUSE` takes (R140). -/
def causeCode : Cause → BitVec 3
  | .illegalCmd => 1#3
  | .hsizeRange => 2#3
  | .vfreqRange => 3#3
  | .gammaRange => 4#3

/-- `STATUS.FAULT`, bit 0 (10_state.md R21). -/
def State.faulted (s : State) : Bool := s.status.getLsbD 0

/-- `STATUS.CAUSE`, bits 3:1 (R21). -/
def State.cause (s : State) : BitVec 3 := s.status.extractLsb' 1 3

/-- STATUS after a fault: `FAULT` 1, `CAUSE` the code, bits 7:4 hardwired 0 (60_exceptions.md R141, 10_state.md R21). -/
def faultStatus (c : Cause) : Byte := 0#4 ++ causeCode c ++ 1#1

/-- What a read of STATUS gives: bits 7:4 are hardwired and read as 0 (R21). -/
def readStatus (w : Byte) : Byte := w &&& 0x0F#8

/-- The values STATUS can have: 0x00, or 0x03, 0x05, 0x07, 0x09 (R21: "Legal values of `STATUS`"). -/
def statusLegal (w : Byte) : Bool :=
  w == 0x00#8 || w == 0x03#8 || w == 0x05#8 || w == 0x07#8 || w == 0x09#8

end Sys2Proof.Machine
end

