-- ==== Sys2Proof/Machine/Operands.lean ====
section
/-! DEFINITION. The block's fixed parameters (00_scope.md R9), the addresses its commands compute (20_memory.md R44, R46), and what the packing
commands make of their operands. Operands become mathematical integers, the value is computed exactly, and it is narrowed once, at the end
(R11: "no rule relies on silent truncation"; that the narrowing drops nothing is a law, not an assumption). -/

namespace Sys2Proof.Machine

/-! Parameters (R9). -/

def recBytes : Nat := 128
def csumSpan : Nat := 127
def csumAddr : Addr := 127#7
def stBase : Nat := 38
def hsizeMin : Nat := 256
def hsizeMax : Nat := 2288
def vfreqMin : Nat := 60
def vfreqMax : Nat := 123
def stSentinel : Byte := 0x01#8
def mfgAddr : Addr := 8#7
def gammaAddr : Addr := 23#7
def gammaRMin : Nat := 100
def gammaRMax : Nat := 354

/-! Addresses. -/

/-- Every address of the record, 0 to 127 (20_memory.md R40). -/
def recAddrs : List Addr := (List.range recBytes).map (BitVec.ofNat 7)

/-- The addresses `csum` sums, 0 to 126 (43_checksum.md R110). -/
def spanAddrs : List Addr := (List.range csumSpan).map (BitVec.ofNat 7)

/-- The lower address of a standard-timing slot, `38 + 2 * slot` (20_memory.md R46). -/
def slotBase (slot : BitVec 3) : Addr := BitVec.ofNat 7 (stBase + 2 * slot.toNat)

/-- The address after `a`, where a pair's second byte goes (00_scope.md R12). -/
def nextAddr (a : Addr) : Addr := a + 1#7

/-! Standard timing (41_standard_timing.md R90). -/

/-- `hsize` is in 256 to 2288 (R90, 60_exceptions.md R143). -/
def hsizeLegal (hsize : BitVec 12) : Bool := hsizeMin ≤ hsize.toNat && hsize.toNat ≤ hsizeMax

/-- `vfreq` is in 60 to 123 (R90, R144). -/
def vfreqLegal (vfreq : BitVec 8) : Bool := vfreqMin ≤ vfreq.toNat && vfreq.toNat ≤ vfreqMax

/-- `(hsize div 8) - 31`; the low 3 bits of a size that is no multiple of 8 are lost (R90, R94). -/
def stByte0 (hsize : BitVec 12) : Byte := BitVec.ofNat 8 (hsize.toNat / 8 - 31)

/-- `(aspect << 6) | (vfreq - 60)` (R90). -/
def stByte1 (vfreq : BitVec 8) (aspect : BitVec 2) : Byte :=
  BitVec.ofNat 8 (aspect.toNat <<< 6 ||| (vfreq.toNat - vfreqMin))

/-! Manufacturer code and gamma (42_vendor_gamma.md R100, R101). -/

/-- `(l1 << 10) | (l2 << 5) | l3`, a 16-bit value whose bit 15 is 0 (R100; where the unused bit lies is the spec's D17, log 9). -/
def mfgValue (l1 l2 l3 : BitVec 5) : BitVec 16 :=
  BitVec.ofNat 16 (l1.toNat <<< 10 ||| l2.toNat <<< 5 ||| l3.toNat)

/-- `v[15:8]`, the byte at the lower address (R100, 20_memory.md R42). -/
def hiByte (v : BitVec 16) : Byte := v.extractLsb' 8 8

/-- `v[7:0]`, the byte at the higher address. -/
def loByte (v : BitVec 16) : Byte := v.extractLsb' 0 8

/-- The rounded hundredths `(g + 5) div 10`, ties upward (R101, R103; the tie rule is the spec's D19, log 10). -/
def gammaHundredths (g : BitVec 16) : Nat := (g.toNat + 5) / 10

/-- The rounded hundredths are in 100 to 354 (R101, R104). -/
def gammaLegal (g : BitVec 16) : Bool :=
  gammaRMin ≤ gammaHundredths g && gammaHundredths g ≤ gammaRMax

/-- `r - 100` (R101). -/
def gammaByte (g : BitVec 16) : Byte := BitVec.ofNat 8 (gammaHundredths g - gammaRMin)

/-! Status-register numbers (40_record_access.md R83). -/

/-- `csr` selects a status register: 0 STATUS, 1 ACC; 2 to 255 are reserved (R83, 30_encoding.md R67). -/
def csrAssigned (csr : BitVec 8) : Bool := csr.toNat < 2

/-! Checksum (43_checksum.md R110). -/

/-- `(256 - s) mod 256` (R110). -/
def checksumByte (s : Byte) : Byte := BitVec.ofNat 8 ((256 - s.toNat) % 256)

end Sys2Proof.Machine
end

