-- ==== Sys2Proof/Machine/Ops.lean ====
section
/-! DEFINITION. The operations every meaning is made of: the record's bytes, the status registers, the response port, the frame every command runs in,
taking a fault and, beside it, the reset that is the only way back, and taking the host's next input. -/

namespace Sys2Proof.Machine

/-! The record as memory (20_memory.md R40, R48). -/

/-- What an address that is not listed holds: no value, since nothing has written it since reset (10_state.md R29). -/
def Memory.unlisted : Option Byte := none

/-- The byte listed at `a`, if any. -/
def Memory.read : Memory → Nat → Option Byte
  | [], _ => Memory.unlisted
  | (k, v) :: rest, a => if k = a then some v else Memory.read rest a

/-- The record with the byte `v` at `a`, in its canonical form again. -/
def Memory.write : Memory → Nat → Byte → Memory
  | [], a, v => [(a, v)]
  | (k, u) :: rest, a, v =>
    if a < k then (a, v) :: (k, u) :: rest
    else if a = k then (a, v) :: rest
    else (k, u) :: Memory.write rest a v

/-- The canonical form: addresses strictly rising, each one of the record's 128 (R40). An unlisted address holds no value, so no entry can be
equal to what an unlisted address holds. -/
abbrev Memory.wf (m : Memory) : Prop :=
  m.Pairwise (fun p q => p.1 < q.1) ∧ ∀ p ∈ m, p.1 < 128

/-- The byte `a` of the record holds, or `none` where nothing has written it since reset (10_state.md R29). -/
def State.byteAt (s : State) (a : Addr) : Option Byte := s.mem.read a.toNat

/-- `MemRead(a, 1)` (00_scope.md R12): the byte last written, or the free value of a byte never written since reset, which differs from
command to command (93_implementation_defined.md U1; log 3). -/
def State.readByte (s : State) (a : Addr) : Byte := (s.byteAt a).getD (Config.freeByte s.index a)

/-- `MemWrite(a, 1, v)` (R12): no effect but on that byte (20_memory.md R48). -/
def State.writeByte (s : State) (a : Addr) (v : Byte) : State := { s with mem := s.mem.write a.toNat v }

/-- Two byte writes of one command, at `a` and at the address after it (R12, R43). -/
def State.writePair (s : State) (a : Addr) (v w : Byte) : State := (s.writeByte a v).writeByte (nextAddr a) w

/-- `for a in 0 .. 127: MemWrite(a, 1, 0x00)` (40_record_access.md R80). -/
def State.clearRecord (s : State) : State := recAddrs.foldl (fun t a => t.writeByte a 0x00#8) s

/-- The 8-bit accumulation over bytes 0 to 126, each read once (43_checksum.md R110, R114; log 15). -/
def State.spanSum (s : State) : Byte := spanAddrs.foldl (fun sum a => sum + s.readByte a) 0x00#8

/-! The status registers and the response port. -/

/-- `csr[n]` for the two status registers, STATUS and ACC (40_record_access.md R83). -/
def State.readCsr (s : State) (csr : BitVec 8) : Byte := if csr = 0#8 then readStatus s.status else s.acc

/-- `csr[ACC] <- v` (R12). -/
def State.setAcc (s : State) (v : Byte) : State := { s with acc := v }

/-- `Respond(v)` (R12). -/
def State.respond (s : State) (v : Byte) : State := { s with resp := some v }

/-- No response so far: what every command starts from (92_eei_decisions.md D27; log 2). -/
def State.quiet (s : State) : State := { s with resp := none }

/-- One command more has been given, whatever its outcome (10_state.md R25; log 4). -/
def State.advance (s : State) : State := { s with index := s.index + 1 }

/-! Taking a fault, and the reset that is the only way out of the fault state. -/

/-- Fault entry: FAULT and CAUSE are written, nothing else changes and no response is given (60_exceptions.md R141). -/
def State.raise (s : State) (c : Cause) : State := { s with status := faultStatus c }

/-- Reset, applied by the host between commands: STATUS and ACC 0, every byte of the record unspecified (70_reset_and_hazards.md R160, R161). What
the host gives next, and the index that numbers free values, are no state of the block and stay (logs 1, 4). -/
def State.hostReset (s : State) : State :=
  { s with mem := State.reset.mem, status := State.reset.status, acc := State.reset.acc, resp := none }

/-! The frame every command runs in. -/

/-- A command, in or out of the fault state: ignored while FAULT = 1, that is nothing changes and no response is given (60_exceptions.md R146),
and otherwise performed by `body` (00_scope.md R8, R13). -/
def State.perform (s : State) (body : State → State) : State :=
  (if s.faulted then s.quiet else body s.quiet).advance

/-- A well-formed `rdsr`, which is performed in the fault state as well (R146, 40_record_access.md R83). -/
def State.performAlways (s : State) (body : State → State) : State := (body s.quiet).advance

/-- A reserved word: ILLEGAL_CMD, or ignored in the fault state (60_exceptions.md R142, R146). -/
def State.illegalCommand (s : State) : State := s.perform (fun t => t.raise .illegalCmd)

/-- The block waits: nothing changes, and a response is not held (70_reset_and_hazards.md R160, 10_state.md R23). -/
def State.wait (s : State) : State := s.quiet

/-! The host's next input. -/

/-- What the host gives next, and the state with that input taken; none while it gives nothing (log 1). -/
def State.takeInput (s : State) : Option (Input × State) :=
  match s.inputs with
  | [] => none
  | e :: rest => some (e, { s with inputs := rest })

/-- The state in which the host gives the command word `w` next. -/
def State.giveCommand (s : State) (w : CmdWord) : State := { s with inputs := .command w :: s.inputs }

end Sys2Proof.Machine
end

