-- ==== Sys2Proof/Machine/Checksum.lean ====
section
/-! DEFINITION. Checksum finalizer (43_checksum.md): csum. -/

namespace Sys2Proof.Machine

/-- `csum` (43_checksum.md R110): ACC takes the sum of bytes 0 to 126 modulo 256, byte 127 its negation; the old byte 127 is not read. -/
def execCsum (s : State) : Host.Outcome State Fault Refusal :=
  .next (s.perform fun t => (t.setAcc t.spanSum).writeByte csumAddr (checksumByte t.spanSum))

end Sys2Proof.Machine
end

