-- ==== Sys2Proof/Machine/RecordAccess.lean ====
section
/-! DEFINITION. Record access and status commands (40_record_access.md): clr, stb, ldb, rdsr. -/

namespace Sys2Proof.Machine

/-- `clr` (40_record_access.md R80): every byte of the record 0; STATUS and ACC keep their values. -/
def execClr (s : State) : Host.Outcome State Fault Refusal :=
  .next (s.perform State.clearRecord)

/-- `stb addr, val` (R81). -/
def execStb (addr : BitVec 7) (val : BitVec 8) (s : State) : Host.Outcome State Fault Refusal :=
  .next (s.perform fun t => t.writeByte addr val)

/-- `ldb addr` (R82): respond with the byte; no state of the block is written. -/
def execLdb (addr : BitVec 7) (s : State) : Host.Outcome State Fault Refusal :=
  .next (s.perform fun t => t.respond (t.readByte addr))

/-- `rdsr csr` (R83): respond with STATUS or ACC, in the fault state as well (60_exceptions.md R146). `csr >= 2` spells a reserved word
(30_encoding.md R68; log 7). -/
def execRdsr (csr : BitVec 8) (s : State) : Host.Outcome State Fault Refusal :=
  if csrAssigned csr then .next (s.performAlways fun t => t.respond (t.readCsr csr))
  else .next s.illegalCommand

end Sys2Proof.Machine
end

