-- ==== Sys2Proof/Machine/StandardTiming.lean ====
section
/-! DEFINITION. Standard-timing packer (41_standard_timing.md): st.set, st.unset. -/

namespace Sys2Proof.Machine

/-- `st.set slot, hsize, vfreq, aspect` (41_standard_timing.md R90): the two range checks in their order (60_exceptions.md R148), then the
two bytes of the slot. A size in range that is no multiple of 8 is packed (R94; log 11). -/
def execStSet (slot : BitVec 3) (hsize : BitVec 12) (vfreq : BitVec 8) (aspect : BitVec 2) (s : State) :
    Host.Outcome State Fault Refusal :=
  .next (s.perform fun t =>
    if !hsizeLegal hsize then t.raise .hsizeRange
    else if !vfreqLegal vfreq then t.raise .vfreqRange
    else t.writePair (slotBase slot) (stByte0 hsize) (stByte1 vfreq aspect))

/-- `st.unset slot` (R91): the sentinel in both bytes of the slot. -/
def execStUnset (slot : BitVec 3) (s : State) : Host.Outcome State Fault Refusal :=
  .next (s.perform fun t => t.writePair (slotBase slot) stSentinel stSentinel)

end Sys2Proof.Machine
end

