-- ==== Sys2Proof/Machine/VendorGamma.lean ====
section
/-! DEFINITION. Vendor-code encoder and gamma packer (42_vendor_gamma.md): mfg, gamma. -/

namespace Sys2Proof.Machine

/-- `mfg l1, l2, l3` (42_vendor_gamma.md R100): 15 bits big-endian across bytes 8 and 9; nothing is checked (R102). -/
def execMfg (l1 l2 l3 : BitVec 5) (s : State) : Host.Outcome State Fault Refusal :=
  .next (s.perform fun t => t.writePair mfgAddr (hiByte (mfgValue l1 l2 l3)) (loByte (mfgValue l1 l2 l3)))

/-- `gamma g` (R101): the range check on the rounded hundredths (R104), then byte 23. -/
def execGamma (g : BitVec 16) (s : State) : Host.Outcome State Fault Refusal :=
  .next (s.perform fun t => if !gammaLegal g then t.raise .gammaRange else t.writeByte gammaAddr (gammaByte g))

end Sys2Proof.Machine
end

