-- ==== Sys2Proof/Machine/Dispatch.lean ====
section
/-! DEFINITION. One arm per command (30_encoding.md R61), each a direct call of its meaning. -/

namespace Sys2Proof.Machine

def exec (i : Instr) (s : State) : Host.Outcome State Fault Refusal :=
  match i with
  | .clr => Sys2Proof.Machine.execClr s
  | .stb addr val => Sys2Proof.Machine.execStb addr val s
  | .ldb addr => Sys2Proof.Machine.execLdb addr s
  | .stSet slot hsize vfreq aspect => Sys2Proof.Machine.execStSet slot hsize vfreq aspect s
  | .stUnset slot => Sys2Proof.Machine.execStUnset slot s
  | .mfg l1 l2 l3 => Sys2Proof.Machine.execMfg l1 l2 l3 s
  | .gamma g => Sys2Proof.Machine.execGamma g s
  | .csum => Sys2Proof.Machine.execCsum s
  | .rdsr csr => Sys2Proof.Machine.execRdsr csr s

end Sys2Proof.Machine
end

