-- ==== Sys2Proof/Machine/Step.lean ====
section
/-! DEFINITION. One step: the host's next input, if it gives one, is looked at and wholly dealt with (00_scope.md R6). -/

namespace Sys2Proof.Machine

/-- One step of the block: with no input it waits (70_reset_and_hazards.md R160); a reset resets it (R160, R161); a command word is decoded and
performed, or is reserved (30_encoding.md R68, R69). -/
def step (s : State) : Host.Outcome State Fault Refusal :=
  match s.takeInput with
  | none => .next s.wait
  | some (.reset, t) => .next t.hostReset
  | some (.command w, t) =>
    match decode w with
    | .ok i => exec i t
    | .error _ => .next t.illegalCommand

/-- The state in which the very next step performs the word whose bits are `w`, numbered as the opcode table numbers them: the host gives that
word next. Nothing else changes (log 14). -/
def State.withFetchWord (s : State) (nbits w : Nat) : State := s.giveCommand (tableWord nbits w)

end Sys2Proof.Machine
end

