-- ==== Sys2Proof/Machine/Assembler.lean ====
section
/-! DEFINITION. The assembler of 30_encoding.md R72 and R73, which the block never sees: lines with numbers for operands, what it refuses, and the
pseudo-instructions' expansions. Nothing in Machine/Step.lean depends on this file. -/

namespace Sys2Proof.Machine

/-- One line of assembly, operands in R72's order, each a number as it was written. -/
inductive AsmLine where
  | clr
  | stb (addr val : Nat)
  | ldb (addr : Nat)
  | stSet (slot hsize vfreq aspect : Nat)
  | stUnset (slot : Nat)
  | mfg (l1 l2 l3 : Nat)
  | gamma (g : Nat)
  | csum
  | rdsr (csr : Nat)
  deriving DecidableEq, Repr

/-- The operand if it fits a field of `w` bits; an assembler must refuse one that does not (R72). -/
def fitField (w n : Nat) : Option (BitVec w) := if n < 2 ^ w then some (BitVec.ofNat w n) else none

/-- The command a line spells, or none where an operand does not fit its field. An operand that fits but is outside its legal range is accepted,
because that word exists and faults (R72). -/
def assemble : AsmLine → Option Instr
  | .clr => some .clr
  | .stb addr val => do return .stb (← fitField 7 addr) (← fitField 8 val)
  | .ldb addr => do return .ldb (← fitField 7 addr)
  | .stSet slot hsize vfreq aspect => do
    return .stSet (← fitField 3 slot) (← fitField 12 hsize) (← fitField 8 vfreq) (← fitField 2 aspect)
  | .stUnset slot => do return .stUnset (← fitField 3 slot)
  | .mfg l1 l2 l3 => do return .mfg (← fitField 5 l1) (← fitField 5 l2) (← fitField 5 l3)
  | .gamma g => do return .gamma (← fitField 16 g)
  | .csum => some .csum
  | .rdsr csr => do return .rdsr (← fitField 8 csr)

/-- The command words of a sequence of lines, or none where a line is refused (R72). -/
def assembleAll : List AsmLine → Option (List CmdWord)
  | [] => some []
  | l :: rest => do return encode (← assemble l) :: (← assembleAll rest)

/-! Pseudo-instructions (R73). -/

/-- The index of an uppercase letter, 1 to 26; any other character is refused. `code - 64` is the spec's general knowledge (G3; log 16). -/
def letterIndex (c : Char) : Option Nat := if 65 ≤ c.toNat ∧ c.toNat ≤ 90 then some (c.toNat - 64) else none

/-- `mfg.ch "XYZ"`. -/
def asmMfgCh (x y z : Char) : Option AsmLine := do
  return .mfg (← letterIndex x) (← letterIndex y) (← letterIndex z)

/-- The fractional digits of a decimal literal, at most three, as thousandths. -/
def thousandths : List (Fin 10) → Option Nat
  | [] => some 0
  | [a] => some (100 * a.val)
  | [a, b] => some (100 * a.val + 10 * b.val)
  | [a, b, c] => some (100 * a.val + 10 * b.val + c.val)
  | _ :: _ :: _ :: _ :: _ => none

/-- `gamma.d <d.ddd>`: the literal times 1000. -/
def asmGammaD (units : Nat) (fraction : List (Fin 10)) : Option AsmLine := do
  return .gamma (1000 * units + (← thousandths fraction))

/-- `hdr`: the header magic 00 FF FF FF FF FF FF 00 at addresses 0 to 7. -/
def asmHdr : List AsmLine :=
  [.stb 0 0x00, .stb 1 0xFF, .stb 2 0xFF, .stb 3 0xFF, .stb 4 0xFF, .stb 5 0xFF, .stb 6 0xFF, .stb 7 0x00]

/-- The names of aspect ratios in examples. -/
inductive AspectName where
  | r16x10
  | r4x3
  | r5x4
  | r16x9
  deriving DecidableEq, Repr

/-- Their codes, the spec's general knowledge (R73, 41_standard_timing.md R96, G2; log 16). -/
def aspectCode : AspectName → Nat
  | .r16x10 => 0
  | .r4x3 => 1
  | .r5x4 => 2
  | .r16x9 => 3

/-- `st.set <slot>, <hsize>, <vfreq>, <name>`. -/
def asmStSetNamed (slot hsize vfreq : Nat) (name : AspectName) : AsmLine := .stSet slot hsize vfreq (aspectCode name)

/-- `dump`: read out the 128 raw bytes. -/
def asmDump : List AsmLine := (List.range 128).map .ldb

end Sys2Proof.Machine
end

