-- ==== Sys2Proof/Machine/Descriptor.lean ====
section
/-! DEFINITION. The 18-byte descriptors of 48_host_procedures.md as a tagged variant with explicit pack and unpack functions (R121). The block sees none
of this: a descriptor's bytes arrive by `stb`. What the spec makes a parameter of a host model (93_implementation_defined.md U14) is a field of
DescriptorFormat; the places of bytes inside the 18 are R134's, which the spec marks as general knowledge (log 16). -/

namespace Sys2Proof.Machine

/-! What the source leaves to "the standard's fixed bit layout" (R125, R126; U14). -/

/-- The four packed sync quantities (R125). -/
inductive SyncField where
  | hOffset
  | hWidth
  | vOffset
  | vWidth
  deriving DecidableEq, Repr

/-- 10 bits each horizontally, 6 vertically (R125). -/
def SyncField.bits : SyncField → Nat
  | .hOffset => 10
  | .hWidth => 10
  | .vOffset => 6
  | .vWidth => 6

/-- The bits `field[lo + len - 1 : lo]`. -/
structure SyncSlice where
  field : SyncField
  lo : Nat
  len : Nat
  deriving DecidableEq, Repr

def SyncSlice.places (c : SyncSlice) : List (SyncField × Nat) := (List.range c.len).map fun i => (c.field, c.lo + i)

/-- The 32 bits of the sync quantities. -/
def syncBits : List (SyncField × Nat) :=
  [SyncField.hOffset, .hWidth, .vOffset, .vWidth].flatMap fun f => (List.range f.bits).map fun i => (f, i)

/-- Every byte is made of 8 bits, and every bit of a sync quantity stands in exactly one place. -/
def placedOnce (bytes : List (List SyncSlice)) : Bool :=
  bytes.all (fun b => (b.flatMap SyncSlice.places).length == 8) && (bytes.flatten.flatMap SyncSlice.places).isPerm syncBits

/-- The bytes of the sync quantities: low bytes, then two shared bytes, each from its most significant slice down (R125). -/
def syncBytesOf (lowA lowB : SyncField) (sharedA sharedB : List SyncSlice) : List (List SyncSlice) :=
  [[⟨lowA, 0, 8⟩], [⟨lowB, 0, 8⟩], sharedA, sharedB]

/-- The bit layout of the sync quantities, a parameter (R125, U14): whose bits 7:0 the two low bytes hold, and the slices of the two shared bytes. -/
structure SyncLayout where
  lowA : SyncField
  lowB : SyncField
  sharedA : List SyncSlice
  sharedB : List SyncSlice
  placed : placedOnce (syncBytesOf lowA lowB sharedA sharedB) = true
  deriving DecidableEq, Repr

/-- The layout of the misc byte, a parameter (R126, U14): where each polarity flag lies, its value for a positive polarity, and the other bits. -/
structure MiscLayout where
  base : Byte
  hBit : Fin 8
  vBit : Fin 8
  hPositive : Bool
  vPositive : Bool
  distinct : hBit ≠ vBit
  deriving DecidableEq, Repr

/-- The type bytes of non-pixel descriptors, parameters (R121, R128, R129, R131's `DUMMY_TAG`; U13, U14). That they differ is DEDUCED: they tag the
variants. -/
structure TypeBytes where
  monitorName : Byte
  genericString : Byte
  serialNumber : Byte
  monitorRange : Byte
  dummy : Byte
  distinct : [monitorName, genericString, serialNumber, monitorRange, dummy].Nodup
  deriving DecidableEq, Repr

/-- What the source refers to without giving it (U14). -/
structure DescriptorFormat where
  types : TypeBytes
  sync : SyncLayout
  misc : MiscLayout
  /-- The two border bytes, which R134 names without a value and the source does not mention (91_not_in_source.md N8; log 17). -/
  hBorder : Byte
  vBorder : Byte
  /-- The newline sentinel (R129). -/
  newline : Byte
  /-- The byte between the fields and the padding of a monitor-range descriptor, and the 7-byte padding pattern (R128, 90_conflicts.md C7). -/
  rangeFlag : Byte
  rangePadding : Vector Byte 7
  deriving DecidableEq, Repr

/-- R134's bit layout of the sync quantities. -/
def exampleSync : SyncLayout :=
  { lowA := .hOffset, lowB := .hWidth, sharedA := [⟨.vOffset, 0, 4⟩, ⟨.vWidth, 0, 4⟩],
    sharedB := [⟨.hOffset, 8, 2⟩, ⟨.hWidth, 8, 2⟩, ⟨.vOffset, 4, 2⟩, ⟨.vWidth, 4, 2⟩], placed := by decide }

/-- The values of R134, not the source's, and border bytes of 0, which no file of the spec gives (log 17); for examples only. -/
def exampleFormat : DescriptorFormat :=
  { types := { monitorName := 0xFC#8, genericString := 0xFE#8, serialNumber := 0xFF#8, monitorRange := 0xFD#8, dummy := 0x10#8,
               distinct := by decide },
    sync := exampleSync,
    misc := { base := 0x18#8, hBit := 1, vBit := 2, hPositive := true, vPositive := true, distinct := by decide },
    hBorder := 0x00#8, vBorder := 0x00#8, newline := 0x0A#8, rangeFlag := 0x00#8,
    rangePadding := #v[0x0A#8, 0x20#8, 0x20#8, 0x20#8, 0x20#8, 0x20#8, 0x20#8] }

/-! The variants (R121). -/

/-- A pixel-timing record. Its fields have the widths R127 allows, and its clock, in 10 kHz units, is its tag and so is not zero (R121). -/
structure PixelTiming where
  clock : BitVec 16
  hActive : BitVec 12
  hBlank : BitVec 12
  vActive : BitVec 12
  vBlank : BitVec 12
  hOffset : BitVec 10
  hWidth : BitVec 10
  vOffset : BitVec 6
  vWidth : BitVec 6
  width : BitVec 12
  height : BitVec 12
  hPositive : Bool
  vPositive : Bool
  tagged : clock ≠ 0#16
  deriving DecidableEq, Repr

/-- The five fields of a monitor-range descriptor (R128). -/
structure MonitorRange where
  minV : Byte
  maxV : Byte
  minH : Byte
  maxH : Byte
  clockTensOfMHz : Byte
  deriving DecidableEq, Repr

/-- The three textual subtypes (R129). -/
inductive StringKind where
  | monitorName
  | genericString
  | serialNumber
  deriving DecidableEq, Repr

/-- A descriptor is a tagged variant (R121). -/
inductive Descriptor where
  | pixelTiming (d : PixelTiming)
  | monitorRange (d : MonitorRange)
  | text (kind : StringKind) (chars : List Byte)
  | dummy
  deriving DecidableEq, Repr

/-- The bytes of one slot. -/
abbrev SlotBytes := Fin 18 → Byte

/-- "a descriptor is a pixel-timing record iff its first two bytes (pixel clock) are nonzero" (R121, 20_memory.md R45): the two-byte field is nonzero,
"tag = nonzero pixel-clock field". -/
abbrev SlotBytes.isPixelTiming (b : SlotBytes) : Prop := ¬ (b 0 = 0x00#8 ∧ b 1 = 0x00#8)

/-- What a slot holds after writes of (offset, value). -/
def SlotBytes.overwrite (b : SlotBytes) (writes : List (Fin 18 × Byte)) : SlotBytes :=
  writes.foldl (fun c q o => if o = q.1 then q.2 else c o) b

/-! Packing. -/

/-- `a[11:8] << 4 | b[11:8]`, the shared byte of two 12-bit values (R124, R126). -/
def highNibbles (a b : BitVec 12) : Byte := a.extractLsb' 8 4 ++ b.extractLsb' 8 4

/-- The low byte of a value. -/
def low8 {w : Nat} (a : BitVec w) : Byte := a.extractLsb' 0 8

def PixelTiming.syncValue (d : PixelTiming) : SyncField → Nat
  | .hOffset => d.hOffset.toNat
  | .hWidth => d.hWidth.toNat
  | .vOffset => d.vOffset.toNat
  | .vWidth => d.vWidth.toNat

/-- The byte made of slices of sync quantities, the most significant slice first (R125). -/
def packSlices (value : SyncField → Nat) (slices : List SyncSlice) : Byte :=
  BitVec.ofNat 8 (slices.foldl (fun acc c => acc * 2 ^ c.len + value c.field / 2 ^ c.lo % 2 ^ c.len) 0)

/-- The byte with its bit `i` set to `v`. -/
def putBit (b : Byte) (i : Fin 8) (v : Bool) : Byte :=
  if v then b ||| 0x01#8 <<< i.val else b &&& ~~~(0x01#8 <<< i.val)

/-- The misc byte (R126). -/
def packMisc (m : MiscLayout) (hPositive vPositive : Bool) : Byte :=
  putBit (putBit m.base m.hBit (hPositive == m.hPositive)) m.vBit (vPositive == m.vPositive)

/-- The 18 writes of a pixel-timing descriptor (R123 to R126; places R134's). -/
def packPixelTiming (f : DescriptorFormat) (d : PixelTiming) : List (Fin 18 × Byte) :=
  [(0, low8 d.clock), (1, d.clock.extractLsb' 8 8),
   (2, low8 d.hActive), (3, low8 d.hBlank), (4, highNibbles d.hActive d.hBlank),
   (5, low8 d.vActive), (6, low8 d.vBlank), (7, highNibbles d.vActive d.vBlank),
   (8, packSlices d.syncValue [⟨f.sync.lowA, 0, 8⟩]), (9, packSlices d.syncValue [⟨f.sync.lowB, 0, 8⟩]),
   (10, packSlices d.syncValue f.sync.sharedA), (11, packSlices d.syncValue f.sync.sharedB),
   (12, low8 d.width), (13, low8 d.height), (14, highNibbles d.width d.height),
   (15, f.hBorder), (16, f.vBorder), (17, packMisc f.misc d.hPositive d.vPositive)]

/-- The 18 writes of a monitor-range descriptor (R128; places R134's, bytes 2 and 4 zero as R134 has them). -/
def packMonitorRange (f : DescriptorFormat) (d : MonitorRange) : List (Fin 18 × Byte) :=
  [(0, 0x00#8), (1, 0x00#8), (2, 0x00#8), (3, f.types.monitorRange), (4, 0x00#8), (5, d.minV), (6, d.maxV), (7, d.minH), (8, d.maxH),
   (9, d.clockTensOfMHz), (10, f.rangeFlag)] ++ [11, 12, 13, 14, 15, 16, 17].zip f.rangePadding.toList

/-- The offsets of the 13 payload bytes (R134). -/
def payloadOffsets : List (Fin 18) := [5, 6, 7, 8, 9, 10, 11, 12, 13, 14, 15, 16, 17]

/-- The payload bytes a string writes: up to 13 characters, then the sentinel if the string is shorter than 13 (R129). -/
def stringPayload (newline : Byte) (chars : List Byte) : List Byte :=
  if chars.length < 13 then chars ++ [newline] else chars.take 13

def TypeBytes.ofKind (t : TypeBytes) : StringKind → Byte
  | .monitorName => t.monitorName
  | .genericString => t.genericString
  | .serialNumber => t.serialNumber

/-- The writes of a string descriptor: pixel-clock tag zeroed, subtype tag set, payload. Bytes after the sentinel, and bytes 2 and 4, are not
written and keep what they held (R129). -/
def packString (f : DescriptorFormat) (kind : StringKind) (chars : List Byte) : List (Fin 18 × Byte) :=
  [(0, 0x00#8), (1, 0x00#8), (3, f.types.ofKind kind)] ++ payloadOffsets.zip (stringPayload f.newline chars)

/-- The 18 writes of a dummy descriptor: the type byte the dummy tag, all else zero (R133). -/
def packDummy (f : DescriptorFormat) : List (Fin 18 × Byte) :=
  (List.finRange 18).map fun o => (o, if o = 3 then f.types.dummy else 0x00#8)

/-- The writes that serialize a descriptor into its slot (R121). -/
def Descriptor.pack (f : DescriptorFormat) : Descriptor → List (Fin 18 × Byte)
  | .pixelTiming d => packPixelTiming f d
  | .monitorRange d => packMonitorRange f d
  | .text kind chars => packString f kind chars
  | .dummy => packDummy f

/-! Unpacking (R121). It is no operation of the block, which has none (00_scope.md R5). -/

/-- The textual subtype a type byte names, if it is one of the three (R129). -/
def TypeBytes.kindOf (t : TypeBytes) (b : Byte) : Option StringKind :=
  if b = t.monitorName then some .monitorName
  else if b = t.genericString then some .genericString
  else if b = t.serialNumber then some .serialNumber
  else none

/-- What a byte, its slices given from the least significant up, says of the bits of one sync quantity. -/
def unpackSlices (g : SyncField) : Nat → List SyncSlice → Nat
  | _, [] => 0
  | b, c :: rest => (if c.field = g then b % 2 ^ c.len * 2 ^ c.lo else 0) + unpackSlices g (b / 2 ^ c.len) rest

/-- A sync quantity, from the four sync bytes. -/
def unpackSync (f : DescriptorFormat) (b : SlotBytes) (g : SyncField) : Nat :=
  (([8, 9, 10, 11].zip (syncBytesOf f.sync.lowA f.sync.lowB f.sync.sharedA f.sync.sharedB)).map
    fun q => unpackSlices g (b q.1).toNat q.2.reverse).sum

/-- A record whose tag is nonzero, as a pixel-timing record. -/
def unpackPixelTiming (f : DescriptorFormat) (b : SlotBytes) (h : b 1 ++ b 0 ≠ 0#16) : PixelTiming :=
  { clock := b 1 ++ b 0,
    hActive := (b 4).extractLsb' 4 4 ++ b 2, hBlank := (b 4).extractLsb' 0 4 ++ b 3,
    vActive := (b 7).extractLsb' 4 4 ++ b 5, vBlank := (b 7).extractLsb' 0 4 ++ b 6,
    hOffset := BitVec.ofNat 10 (unpackSync f b .hOffset), hWidth := BitVec.ofNat 10 (unpackSync f b .hWidth),
    vOffset := BitVec.ofNat 6 (unpackSync f b .vOffset), vWidth := BitVec.ofNat 6 (unpackSync f b .vWidth),
    width := (b 14).extractLsb' 4 4 ++ b 12, height := (b 14).extractLsb' 0 4 ++ b 13,
    hPositive := (b 17).getLsbD f.misc.hBit.val == f.misc.hPositive,
    vPositive := (b 17).getLsbD f.misc.vBit.val == f.misc.vPositive,
    tagged := h }

/-- The descriptor a slot holds, by its tag and then its type byte; none where the type byte names none (R121). A text ends at the sentinel or at
13 characters (R129). -/
def Descriptor.unpack (f : DescriptorFormat) (b : SlotBytes) : Option Descriptor :=
  if h : b 1 ++ b 0 ≠ 0#16 then some (.pixelTiming (unpackPixelTiming f b h))
  else if b 3 = f.types.monitorRange then
    some (.monitorRange { minV := b 5, maxV := b 6, minH := b 7, maxH := b 8, clockTensOfMHz := b 9 })
  else if b 3 = f.types.dummy then some .dummy
  else (f.types.kindOf (b 3)).map fun kind => .text kind ((payloadOffsets.map b).takeWhile (· ≠ f.newline))

end Sys2Proof.Machine
end

