-- ==== Sys2Proof/Machine/HostProcedures.lean ====
section
/-! DEFINITION. The host procedures of 48_host_procedures.md as command sequences. They are no commands of the block (00_scope.md R4) and nothing in
Machine/Step.lean depends on this file. What the source names without a value is a field of HostParams or of its DescriptorFormat (00_scope.md R9,
48 R131, 93 U13, U14). -/

namespace Sys2Proof.Machine

/-- A bit of the established-timings bitmap, bytes 35 to 37: `bit` of byte `35 + byte` (20_memory.md R44). -/
structure EstablishedPlace where
  byte : Fin 3
  bit : Fin 8
  deriving DecidableEq, Repr

/-- The established-timing bit positions, parameters (R131; U14): one for each of the three modes of R130 step 7. That they are three different bits is
R130's "three bits". -/
structure EstablishedBits where
  vga640x480 : EstablishedPlace
  svga800x600 : EstablishedPlace
  xga1024x768 : EstablishedPlace
  distinct : [vga640x480, svga800x600, xga1024x768].Nodup
  deriving DecidableEq, Repr

def EstablishedBits.places (e : EstablishedBits) : List EstablishedPlace := [e.vga640x480, e.svga800x600, e.xga1024x768]

/-- Byte `35 + k` with the bits of the three modes that lie in it set, and no other (R130 step 7). -/
def establishedByte (e : EstablishedBits) (k : Fin 3) : Byte :=
  e.places.foldl (fun b q => if q.byte = k then putBit b q.bit true else b) 0x00#8

/-- The OPEN, host-side parameters (R9, R131) and the values the source refers to without giving them (U14). -/
structure HostParams where
  /-- `MFG_PLACEHOLDER`, three letter indices. -/
  mfgPlaceholder : BitVec 5 × BitVec 5 × BitVec 5
  /-- `INPUT_TYPE_DEFAULT`. -/
  inputTypeDefault : Byte
  /-- `FEATURES_DEFAULT`. -/
  featuresDefault : Byte
  /-- `CURRENT_YEAR`, the calendar year at the time of the call. -/
  currentYear : Nat
  /-- `NAME_PLACEHOLDER`, as character codes. -/
  namePlaceholder : List Byte
  /-- Aspect codes of 16:9 and 4:3 (41_standard_timing.md R96). -/
  aspect16x9 : BitVec 2
  aspect4x3 : BitVec 2
  /-- The bits that say 640x480, 800x600 and 1024x768 at 60 Hz (R130 step 7). -/
  established : EstablishedBits
  /-- Type bytes, `DUMMY_TAG` among them, bit layouts, sentinel, padding (R121, R125, R126, R128, R129). -/
  format : DescriptorFormat
  /-- Whether a pixel clock halfway between `n` and `n + 1` units of 10 kHz rounds up to `n + 1`. The tie rule is not stated (R123); as a function of
  `n` this is every one: always up, always down, to even, to odd (log 19). -/
  clockTieUp : Nat → Bool
  /-- Whether "rounded-up" is the quotient plus one rather than the ceiling (R128). -/
  clockPlusOne : Bool

/-- The values of 95_test_vectors.md P1 and 48_host_procedures.md R134, not the source's; for examples only. -/
def exampleParams : HostParams :=
  { mfgPlaceholder := (9#5, 7#5, 20#5), inputTypeDefault := 0x80#8, featuresDefault := 0x02#8, currentYear := 2020,
    namePlaceholder := [73#8, 71#8, 84#8], aspect16x9 := 3#2, aspect4x3 := 1#2,
    established := { vga640x480 := ⟨0, 5⟩, svga800x600 := ⟨0, 0⟩, xga1024x768 := ⟨1, 3⟩, distinct := by decide },
    format := exampleFormat, clockTieUp := fun _ => true, clockPlusOne := false }

/-- A display mode (R122), the clock in kilohertz; where its refresh rate comes from the source does not say (91 N11; log 16). -/
structure DisplayMode where
  hactive : Nat
  htotal : Nat
  hsyncStart : Nat
  hsyncEnd : Nat
  vactive : Nat
  vtotal : Nat
  vsyncStart : Nat
  vsyncEnd : Nat
  clock : Nat
  refresh : Nat
  hsyncPositive : Bool
  vsyncPositive : Bool
  deriving DecidableEq, Repr

/-- Why a host procedure ends the host's run. The block sees none of these. -/
inductive HostStop where
  /-- A field exceeds its bound: fatal, as R127 says. Raised by `pixelTiming`. Safe: the host's run ends as in the source. -/
  | preconditionViolated
  /-- A subtype that is none of the three: "a fatal contract violation" (R129). Raised by `stringDescriptor`. Safe. -/
  | notTextualSubtype
  /-- A clock that does not fit 16 bits in 10 kHz units: refused (93 U16). Raised by `pixelTiming`. Safe. -/
  | clockDoesNotFit
  /-- A year before 1990 or after 2245: refused (93 U16). Raised by `defaultInit`. Safe. -/
  | yearDoesNotFit
  /-- A clock that rounds to 0: DESIGN CHOICE, refused, since the record would not be tagged as pixel timing (R121; log 18). Raised by `pixelTiming`.
  Safe. -/
  | clockRoundsToZero
  /-- A difference that would be negative: DESIGN CHOICE, refused (R122, R128; log 16). Raised by `pixelTiming` and `monitorRange`. Safe. -/
  | negativeDifference
  /-- A monitor-range value that does not fit its byte, or a mode of total width 0: DESIGN CHOICE, refused (R128; log 16). Raised by `monitorRange`.
  Safe. -/
  | rangeDoesNotFit
  deriving DecidableEq, Repr

/-- The difference of two fields. -/
def modeDiff (a b : Nat) : Except HostStop Nat := if b ≤ a then .ok (a - b) else .error .negativeDifference

/-- The value as a field of `w` bits, if it fits; otherwise the run ends for the reason given. -/
def hostField (stop : HostStop) (w n : Nat) : Except HostStop (BitVec w) :=
  match fitField w n with
  | some v => .ok v
  | none => .error stop

/-- The clock in 10 kHz units, to the nearest (R123). -/
def clockTens (p : HostParams) (clock : Nat) : Nat :=
  if clock % 10 < 5 ∨ clock % 10 = 5 ∧ p.clockTieUp (clock / 10) = false then clock / 10 else clock / 10 + 1

/-- Byte `o` of descriptor slot `k`, one of the four of 18 bytes each from address 54 on (R121, 20_memory.md R44, R45). -/
def descriptorAddr (k : Fin 4) (o : Fin 18) : Nat := 54 + 18 * k.val + o.val

/-- The `stb` lines that carry out the writes of one descriptor. -/
def descriptorLines (k : Fin 4) (writes : List (Fin 18 × Byte)) : List AsmLine :=
  writes.map fun q => .stb (descriptorAddr k q.1) q.2.toNat

/-- The pixel-timing record of a mode (R122, R123, R127), width and height in millimetres. R127's bounds are those of the fields' widths. A mode that
violates several conditions ends the run for the first of them in the order written here, which the spec does not fix. -/
def pixelTiming (p : HostParams) (m : DisplayMode) (width height : Nat) : Except HostStop PixelTiming := do
  let hActive ← hostField .preconditionViolated 12 m.hactive
  let hBlank ← hostField .preconditionViolated 12 (← modeDiff m.htotal m.hactive)
  let hOffset ← hostField .preconditionViolated 10 (← modeDiff m.hsyncStart m.hactive)
  let hWidth ← hostField .preconditionViolated 10 (← modeDiff m.hsyncEnd m.hsyncStart)
  let vActive ← hostField .preconditionViolated 12 m.vactive
  let vBlank ← hostField .preconditionViolated 12 (← modeDiff m.vtotal m.vactive)
  let vOffset ← hostField .preconditionViolated 6 (← modeDiff m.vsyncStart m.vactive)
  let vWidth ← hostField .preconditionViolated 6 (← modeDiff m.vsyncEnd m.vsyncStart)
  let w ← hostField .preconditionViolated 12 width
  let h ← hostField .preconditionViolated 12 height
  let clock ← hostField .clockDoesNotFit 16 (clockTens p m.clock)
  if tagged : clock ≠ 0#16 then
    return { clock, hActive, hBlank, vActive, vBlank, hOffset, hWidth, vOffset, vWidth, width := w, height := h,
             hPositive := m.hsyncPositive, vPositive := m.vsyncPositive, tagged }
  else throw .clockRoundsToZero

/-- The pixel clock in units of 10 MHz, "rounded-up" (R128). -/
def clockTensOfMHz (p : HostParams) (clock : Nat) : Nat :=
  if p.clockPlusOne then clock / 10000 + 1 else (clock + 9999) / 10000

/-- `clock / htotal` in kilohertz, as an integer quotient (R128; log 16). -/
def horizontalRate (m : DisplayMode) : Except HostStop Nat :=
  if m.htotal = 0 then .error .rangeDoesNotFit else .ok (m.clock / m.htotal)

/-- The monitor range of a mode (R128). -/
def monitorRange (p : HostParams) (m : DisplayMode) : Except HostStop MonitorRange := do
  let rate ← horizontalRate m
  let minV ← hostField .rangeDoesNotFit 8 (← modeDiff m.refresh 1)
  let maxV ← hostField .rangeDoesNotFit 8 (m.refresh + 1)
  let minH ← hostField .rangeDoesNotFit 8 (← modeDiff rate 1)
  let maxH ← hostField .rangeDoesNotFit 8 (rate + 1)
  let clock ← hostField .rangeDoesNotFit 8 (clockTensOfMHz p m.clock)
  return { minV, maxV, minH, maxH, clockTensOfMHz := clock }

/-- The string descriptor of a subtype, named by its type byte: one of the three textual subtypes, any other fatal (R129). -/
def stringDescriptor (f : DescriptorFormat) (subtype : Byte) (text : List Byte) : Except HostStop Descriptor :=
  match f.types.kindOf subtype with
  | some kind => .ok (.text kind text)
  | none => .error .notTextualSubtype

/-- The manufacture-year offset from 1990, one byte (R130 step 6, R131). -/
def yearOffset (year : Nat) : Except HostStop Byte :=
  if 1990 ≤ year then hostField .yearDoesNotFit 8 (year - 1990) else .error .yearDoesNotFit

/-- Default initialization, in the source's order (R130). It does not run the finalizer. -/
def defaultInit (p : HostParams) : Except HostStop (List AsmLine) := do
  let year ← yearOffset p.currentYear
  let (l1, l2, l3) := p.mfgPlaceholder
  let wide := p.aspect16x9.toNat
  let narrow := p.aspect4x3.toNat
  return [.clr] ++ asmHdr ++
    [.mfg l1.toNat l2.toNat l3.toNat, .stb 18 1, .stb 19 3, .stb 20 p.inputTypeDefault.toNat, .stb 21 52, .stb 22 30, .gamma 2200,
     .stb 24 p.featuresDefault.toNat, .stb 17 year.toNat,
     .stb 35 (establishedByte p.established 0).toNat, .stb 36 (establishedByte p.established 1).toNat,
     .stb 37 (establishedByte p.established 2).toNat,
     .stSet 0 1920 60 wide, .stSet 1 1280 60 wide, .stSet 2 1024 60 narrow, .stSet 3 800 60 narrow, .stSet 4 640 60 narrow,
     .stUnset 5, .stUnset 6, .stUnset 7]

/-- Mode-based initialization (R132, R133): default initialization, then the four descriptor slots; 52 by 30 cm are 520 by 300 mm. -/
def modeInit (p : HostParams) (m : DisplayMode) : Except HostStop (List AsmLine) := do
  let start ← defaultInit p
  let pixel ← pixelTiming p m (10 * 52) (10 * 30)
  let range ← monitorRange p m
  let name ← stringDescriptor p.format p.format.types.monitorName p.namePlaceholder
  return start ++ descriptorLines 0 ((Descriptor.pixelTiming pixel).pack p.format) ++
    descriptorLines 1 ((Descriptor.monitorRange range).pack p.format) ++
    descriptorLines 2 (name.pack p.format) ++ descriptorLines 3 (Descriptor.dummy.pack p.format)

/-- The source's flow (R135, 70_reset_and_hazards.md R163, R164): an initialization, further commands, one `csum`, then the read-out. -/
def finishRecord (build : List AsmLine) : List AsmLine := build ++ [.csum] ++ asmDump

end Sys2Proof.Machine
end

