-- ==== Sys2Proof/Safety.lean ====
section
/-! DEFINITION. What claims are stated in: the invariant of the block, which bytes a command writes and reads, which command meets which fault
condition, a run and its end. -/

namespace Sys2Proof.Machine

/-- The invariant every step keeps: the record in its canonical form with no address outside 0 to 127 (20_memory.md R40), and STATUS one of
its legal values (10_state.md R21). -/
def State.Inv (s : State) : Prop := s.mem.wf ∧ statusLegal s.status = true

/-- The fault condition a command meets, from the table of 60_exceptions.md R140 in the priority of R148; none for a command that is
performed. -/
def faultOf : Instr → Option Cause
  | .clr => none
  | .stb _ _ => none
  | .ldb _ => none
  | .stSet _ hsize vfreq _ =>
    if hsize.toNat < 256 ∨ 2288 < hsize.toNat then some .hsizeRange
    else if vfreq.toNat < 60 ∨ 123 < vfreq.toNat then some .vfreqRange
    else none
  | .stUnset _ => none
  | .mfg _ _ _ => none
  | .gamma g => if (g.toNat + 5) / 10 < 100 ∨ 354 < (g.toNat + 5) / 10 then some .gammaRange else none
  | .csum => none
  | .rdsr csr => if csr.toNat < 2 then none else some .illegalCmd

/-- The addresses a performed command writes (20_memory.md R41). -/
def writesTo : Instr → Addr → Prop
  | .clr, _ => True
  | .stb addr _, a => a = addr
  | .ldb _, _ => False
  | .stSet slot _ _ _, a => a.toNat = 38 + 2 * slot.toNat ∨ a.toNat = 39 + 2 * slot.toNat
  | .stUnset slot, a => a.toNat = 38 + 2 * slot.toNat ∨ a.toNat = 39 + 2 * slot.toNat
  | .mfg _ _ _, a => a.toNat = 8 ∨ a.toNat = 9
  | .gamma _, a => a.toNat = 23
  | .csum, a => a.toNat = 127
  | .rdsr _, _ => False

/-- The addresses a performed command reads (R41). -/
def readsFrom : Instr → Addr → Prop
  | .clr, _ => False
  | .stb _ _, _ => False
  | .ldb addr, a => a = addr
  | .stSet _ _ _ _, _ => False
  | .stUnset _, _ => False
  | .mfg _ _ _, _ => False
  | .gamma _, _ => False
  | .csum, a => a.toNat < 127
  | .rdsr _, _ => False

/-- The number bits `lo + len - 1` down to `lo` of the word spell (00_scope.md R10). -/
def fieldOf (w : CmdWord) (lo len : Nat) : Nat := w.toNat / 2 ^ lo % 2 ^ len

/-- The word is reserved, in the words of 30_encoding.md R68 and the formats of R62 to R67: `op` unassigned, a reserved bit of an assigned
format set, or `rdsr` with `csr >= 2`. -/
abbrev reservedWord (w : CmdWord) : Prop :=
  (fieldOf w 28 4 = 0 ∨ 10 ≤ fieldOf w 28 4) ∨
  (fieldOf w 28 4 = 1 ∧ fieldOf w 0 28 ≠ 0) ∨
  (fieldOf w 28 4 = 2 ∧ fieldOf w 15 13 ≠ 0) ∨
  (fieldOf w 28 4 = 3 ∧ (fieldOf w 15 13 ≠ 0 ∨ fieldOf w 0 8 ≠ 0)) ∨
  (fieldOf w 28 4 = 4 ∧ fieldOf w 25 3 ≠ 0) ∨
  (fieldOf w 28 4 = 5 ∧ (fieldOf w 25 3 ≠ 0 ∨ fieldOf w 0 22 ≠ 0)) ∨
  (fieldOf w 28 4 = 6 ∧ fieldOf w 15 13 ≠ 0) ∨
  (fieldOf w 28 4 = 7 ∧ fieldOf w 16 12 ≠ 0) ∨
  (fieldOf w 28 4 = 8 ∧ fieldOf w 0 28 ≠ 0) ∨
  (fieldOf w 28 4 = 9 ∧ (fieldOf w 8 20 ≠ 0 ∨ 2 ≤ fieldOf w 0 8))

/-- Commands performed one after the other, in program order (20_memory.md R49), stopping where a step does not answer a next state. -/
def execAll : List Instr → State → Host.Outcome State Fault Refusal
  | [], s => .next s
  | i :: rest, s =>
    match exec i s with
    | .next t => execAll rest t
    | .fault r => .fault r
    | .refused r => .refused r

/-- The mathematical sum of the bytes at addresses 0 to `n - 1`, as a command given now reads them. -/
def State.byteSum (s : State) (n : Nat) : Nat :=
  ((List.range n).map fun k => (s.readByte (BitVec.ofNat 7 k)).toNat).sum

/-- Every byte at an address below `n` has been written since reset (70_reset_and_hazards.md R162). -/
def State.writtenBelow (s : State) (n : Nat) : Prop := ∀ a : Addr, a.toNat < n → s.byteAt a ≠ none

/-- The block's step in the spec's own form, `State -> CommandWord -> State x Option Byte` (00_scope.md R6). -/
def performWord (s : State) (w : CmdWord) : State × Option Byte :=
  match step (s.giveCommand w) with
  | .next t => (t, t.resp)
  | .fault _ => (s, none)
  | .refused _ => (s, none)

/-- A run: command words issued one after the other, and the response bytes the host receives (70_reset_and_hazards.md R168). -/
def runWords (s : State) : List CmdWord → State × List Byte
  | [] => (s, [])
  | w :: ws =>
    let (t, r) := performWord s w
    let (u, rs) := runWords t ws
    (u, r.toList ++ rs)

/-- The word asks for a response byte: it is a well-formed `ldb` or `rdsr` (92_eei_decisions.md D27). -/
def asksForByte (w : CmdWord) : Bool :=
  match decode w with
  | .ok (.ldb _) => true
  | .ok (.rdsr _) => true
  | _ => false

/-- A run in R168's sense: the words `ws` issued after the block in `s` is reset. The state it ends in and the response bytes, in order. -/
def runAfterReset (s : State) (ws : List CmdWord) : State × List Byte := runWords s.hostReset ws

/-- The run of `ws` has ended well (70_reset_and_hazards.md R168): the host has issued its last command and nothing more is to come, FAULT is 0, and
the host has the response bytes it asked for, one for every word that asks for one. -/
abbrev runEndedWell (s : State) (ws : List CmdWord) : Prop :=
  (runAfterReset s ws).1.inputs = [] ∧ (runAfterReset s ws).1.faulted = false ∧
  (runAfterReset s ws).2.length = (ws.filter asksForByte).length

/-- The words of `dump`: `ldb 0` to `ldb 127` (30_encoding.md R73). -/
def dumpWords : List CmdWord := recAddrs.map fun a => encode (.ldb a)

/-- The result of a run that builds a record: the 128 response bytes of its final `dump`; none where the run has not ended well or does not end in a
`dump` (R168). -/
def runResult (s : State) (ws : List CmdWord) : Option (List Byte) :=
  if dumpWords <:+ ws ∧ runEndedWell s ws then
    some ((runAfterReset s ws).2.drop ((runAfterReset s ws).2.length - 128))
  else none

/-- The record a host procedure yields in the source's flow (48_host_procedures.md R135): reset, the procedure's commands, one `csum`, a `dump`; none
where the procedure ends the host's run (R127, R129). -/
def hostResult (s : State) (build : Except HostStop (List AsmLine)) : Option (List Byte) :=
  match build with
  | .error _ => none
  | .ok lines => (assembleAll (finishRecord lines)).bind (runResult s)

end Sys2Proof.Machine
end

