-- ==== Sys2Proof/Certificates/Slice0/Obligations.lean ====
section
/-! DEFINITION. The statements for the provers, each about every state and operand it names. `inputs`, `resp` and `index` are the model's own fields
(logs 1, 2, 4): a clause about them says how the model carries R6's input, R6's output and R25's bookkeeping index. -/

open Sys2Proof Sys2Proof.Machine

/-! Encoding -/

/-- 30_encoding.md R62 to R70: every well-formed command, at every value of every operand, is read back from its word. -/
def Obligations.DecodeOfEncode : Prop :=
  ∀ i : Instr, i.wf = true → decode (encode i) = .ok i

/-- R69, the other direction: a word that decodes is the word of the command it decodes to, and that command is well-formed. -/
def Obligations.EncodeOfDecode : Prop :=
  ∀ (w : CmdWord) (i : Instr), decode w = .ok i → i.wf = true ∧ encode i = w

/-- R68: the words the decoder rejects are the reserved words. -/
def Obligations.RejectedWordsAreTheReservedWords : Prop :=
  ∀ w : CmdWord, (∃ r, decode w = .error r) ↔ reservedWord w

/-- R69: at most one row of the table matches a word, and a word decodes when a row matches. -/
def Obligations.AtMostOneRowMatches : Prop :=
  (∀ w : CmdWord, ∀ r ∈ opTable, ∀ q ∈ opTable, r.accepts w = true → q.accepts w = true → r = q) ∧
  (∀ w : CmdWord, (∃ i, decode w = .ok i) ↔ ∃ r ∈ opTable, r.accepts w = true)

/-- Words of 95_test_vectors.md, one per family at least, decode to the command they stand for. -/
def Obligations.SampleWordsDecode : Prop :=
  decodeTableWord 32 0x10000000 = some .clr ∧
  decodeTableWord 32 0x20007FFF = some (.stb 127#7 0xFF#8) ∧
  decodeTableWord 32 0x30001200 = some (.ldb 18#7) ∧
  decodeTableWord 32 0x4033C780 = some (.stSet 0#3 1920#12 60#8 3#2) ∧
  decodeTableWord 32 0x51400000 = some (.stUnset 5#3) ∧
  decodeTableWord 32 0x600024F4 = some (.mfg 9#5 7#5 20#5) ∧
  decodeTableWord 32 0x70000898 = some (.gamma 2200#16) ∧
  decodeTableWord 32 0x80000000 = some .csum ∧
  decodeTableWord 32 0x90000001 = some (.rdsr 1#8)

/-! The step -/

/-- When the next input is a word that decodes to `i`, the step is `exec i` with that input taken. -/
def Obligations.StepRunsTheDecodedCommand : Prop :=
  ∀ (s : State) (w : CmdWord) (rest : List Input) (i : Instr),
    s.inputs = .command w :: rest → decode w = .ok i → step s = exec i { s with inputs := rest }

/-- With no input the block waits (70_reset_and_hazards.md R160): the step leaves everything but the response port, which shows no response
(the model's choice, logs 1 and 2). -/
def Obligations.StepWaitsWithoutInput : Prop :=
  ∀ s : State, s.inputs = [] → step s = .next { s with resp := none }

/-- 00_scope.md R7: every command ends; here every step of every state answers a next state. -/
def Obligations.StepAlwaysAnswersNext : Prop :=
  ∀ s : State, ∃ t, step s = .next t

/-! Reset -/

/-- 10_state.md R29: the state after reset; no byte of the record holds a value (log 3). -/
def Obligations.ResetState : Prop :=
  State.reset.status = 0x00#8 ∧ State.reset.faulted = false ∧ State.reset.cause = 0#3 ∧ State.reset.acc = 0x00#8 ∧
  ∀ a, State.reset.byteAt a = none

/-- 70_reset_and_hazards.md R160: a reset the host applies between commands, from any state, the fault state included. -/
def Obligations.HostResetEffect : Prop :=
  ∀ (s : State) (rest : List Input), s.inputs = .reset :: rest →
    ∃ t, step s = .next t ∧ t.status = 0x00#8 ∧ t.faulted = false ∧ t.acc = 0x00#8 ∧ (∀ a, t.byteAt a = none) ∧
      t.resp = none ∧ t.inputs = rest ∧ t.index = s.index

/-! Invariants -/

/-- The invariant holds right after reset. -/
def Obligations.ResetMeetsInv : Prop := State.reset.Inv

/-- Every step keeps the invariant: the record canonical within 0 to 127 (20_memory.md R40), STATUS legal (10_state.md R21). -/
def Obligations.StepKeepsInv : Prop :=
  ∀ s t : State, s.Inv → step s = .next t → t.Inv

/-! Faults and the fault state -/

/-- 60_exceptions.md R141: fault entry, by a command that meets its condition or by a reserved word. -/
def Obligations.FaultEntryWritesStatusOnly : Prop :=
  (∀ (s : State) (i : Instr) (c : Cause), s.faulted = false → faultOf i = some c →
    ∃ t, exec i s = .next t ∧ t.faulted = true ∧ t.cause = causeCode c ∧ (∀ a, t.byteAt a = s.byteAt a) ∧
      t.acc = s.acc ∧ t.resp = none) ∧
  (∀ (s : State) (w : CmdWord), s.faulted = false → reservedWord w →
    ∃ t, step (s.giveCommand w) = .next t ∧ t.faulted = true ∧ t.cause = causeCode .illegalCmd ∧
      (∀ a, t.byteAt a = s.byteAt a) ∧ t.acc = s.acc ∧ t.resp = none)

/-- 60_exceptions.md R142: a reserved word raises ILLEGAL_CMD, cause 1. -/
def Obligations.ReservedWordRaisesIllegalCmd : Prop :=
  ∀ (s : State) (w : CmdWord), s.faulted = false → reservedWord w →
    ∃ t, step (s.giveCommand w) = .next t ∧ t.status = 0x03#8

/-- A command that meets no fault condition is performed and FAULT stays 0 (00_scope.md R8): STATUS is as it was. -/
def Obligations.PerformedCommandKeepsStatus : Prop :=
  ∀ (s : State) (i : Instr), s.faulted = false → faultOf i = none → ∃ t, exec i s = .next t ∧ t.status = s.status

/-- 60_exceptions.md R143: `hsize` below 256 or above 2288, and nothing else, makes `st.set` record HSIZE_RANGE; a size in range that is no
multiple of 8 does not. -/
def Obligations.StSetRaisesHsizeRange : Prop :=
  ∀ (s : State) (slot : BitVec 3) (hsize : BitVec 12) (vfreq : BitVec 8) (aspect : BitVec 2), s.faulted = false →
    ∃ t, exec (.stSet slot hsize vfreq aspect) s = .next t ∧
      (t.status = 0x05#8 ↔ hsize.toNat < 256 ∨ 2288 < hsize.toNat)

/-- 60_exceptions.md R144: `vfreq` below 60 or above 123, and nothing else, makes `st.set` record VFREQ_RANGE; where the size is out of range too,
that is the first condition and the one recorded (R148). -/
def Obligations.StSetRaisesVfreqRange : Prop :=
  ∀ (s : State) (slot : BitVec 3) (hsize : BitVec 12) (vfreq : BitVec 8) (aspect : BitVec 2), s.faulted = false →
    256 ≤ hsize.toNat → hsize.toNat ≤ 2288 →
    ∃ t, exec (.stSet slot hsize vfreq aspect) s = .next t ∧
      (t.status = 0x07#8 ↔ vfreq.toNat < 60 ∨ 123 < vfreq.toNat)

/-- 60_exceptions.md R148: a reserved word is ILLEGAL_CMD whatever its other bits; then HSIZE_RANGE, whatever the rate; then VFREQ_RANGE; and
GAMMA_RANGE comes from `gamma` only. -/
def Obligations.ConditionsInPriorityOrder : Prop :=
  (∀ (s : State) (w : CmdWord), s.faulted = false → reservedWord w →
    ∃ t, step (s.giveCommand w) = .next t ∧ t.status = 0x03#8) ∧
  (∀ (s : State) (slot : BitVec 3) (hsize : BitVec 12) (vfreq : BitVec 8) (aspect : BitVec 2), s.faulted = false →
    ∃ t, exec (.stSet slot hsize vfreq aspect) s = .next t ∧
      t.status = if hsize.toNat < 256 ∨ 2288 < hsize.toNat then 0x05#8
        else if vfreq.toNat < 60 ∨ 123 < vfreq.toNat then 0x07#8 else s.status) ∧
  (∀ (s t : State) (i : Instr), s.faulted = false → exec i s = .next t → t.status = 0x09#8 → ∃ g, i = .gamma g)

/-- 60_exceptions.md R140, R145: `gamma` records GAMMA_RANGE when the rounded hundredths are outside 100 to 354; that ties round upward is the spec's own
decision D19 (log 10). -/
def Obligations.GammaRaisesGammaRange : Prop :=
  ∀ (s : State) (g : BitVec 16), s.faulted = false →
    ∃ t, exec (.gamma g) s = .next t ∧
      (t.status = 0x09#8 ↔ (g.toNat + 5) / 10 < 100 ∨ 354 < (g.toNat + 5) / 10)

/-- 60_exceptions.md R146: in the fault state every word but a well-formed `rdsr` changes no state and gives no response; a well-formed `rdsr`
responds with STATUS or ACC and changes none either; a reset leaves the fault state. -/
def Obligations.FaultStateIgnoresAllButRdsr : Prop :=
  (∀ (s : State) (w : CmdWord), s.faulted = true →
    ∃ t, step (s.giveCommand w) = .next t ∧ (∀ a, t.byteAt a = s.byteAt a) ∧ t.status = s.status ∧ t.acc = s.acc ∧
      t.resp = if w = 0x90000000#32 then some (s.status &&& 0x0F#8) else if w = 0x90000001#32 then some s.acc else none) ∧
  (∀ (s : State) (rest : List Input), s.faulted = true → s.inputs = .reset :: rest →
    ∃ t, step s = .next t ∧ t.faulted = false)

/-- 60_exceptions.md R146, R149: a step that ends the fault state took a reset. -/
def Obligations.FaultStateLeftOnlyByReset : Prop :=
  ∀ s t : State, s.faulted = true → step s = .next t → t.faulted = false → ∃ rest, s.inputs = .reset :: rest

/-- The same over runs of any length from any faulted state: while the host gives command words only, whatever they are, STATUS, ACC and every byte
of the record stay as they are. -/
def Obligations.FaultStateAbsorbsEveryRun : Prop :=
  ∀ (k : Nat) (s : State), s.faulted = true → (∀ e ∈ s.inputs, e ≠ Input.reset) →
    ∃ t, core.run k s = .next t ∧ t.faulted = true ∧ t.status = s.status ∧ t.acc = s.acc ∧ ∀ a, t.byteAt a = s.byteAt a

/-! Record access and status commands -/

/-- 40_record_access.md R80: `clr` zeroes all 128 bytes and leaves STATUS and ACC. -/
def Obligations.ClrZeroesTheRecord : Prop :=
  ∀ s : State, s.faulted = false →
    ∃ t, exec .clr s = .next t ∧ (∀ a, t.byteAt a = some 0x00#8) ∧ t.status = s.status ∧ t.acc = s.acc ∧
      t.resp = none ∧ t.inputs = s.inputs ∧ t.index = s.index + 1

/-- R81: `stb` stores one byte and changes nothing else. -/
def Obligations.StbStoresOneByte : Prop :=
  ∀ (s : State) (addr : BitVec 7) (val : BitVec 8), s.faulted = false →
    ∃ t, exec (.stb addr val) s = .next t ∧ t.byteAt addr = some val ∧ (∀ a, a ≠ addr → t.byteAt a = s.byteAt a) ∧
      t.status = s.status ∧ t.acc = s.acc ∧ t.resp = none ∧ t.inputs = s.inputs ∧ t.index = s.index + 1

/-- R82: `ldb` responds with exactly one byte, the byte the address holds where one has been written, and changes no state of the block. -/
def Obligations.LdbRespondsWithTheByte : Prop :=
  ∀ (s : State) (addr : BitVec 7), s.faulted = false →
    ∃ t b, exec (.ldb addr) s = .next t ∧ t.resp = some b ∧ (∀ v, s.byteAt addr = some v → b = v) ∧
      (∀ a, t.byteAt a = s.byteAt a) ∧ t.status = s.status ∧ t.acc = s.acc ∧ t.inputs = s.inputs ∧ t.index = s.index + 1

/-- R83 and 10_state.md R21: `rdsr 0` responds with STATUS, bits 7:4 read as 0, in every state, and changes no state; with FAULT 0 and a legal
STATUS the response is 0x00. -/
def Obligations.RdsrRespondsWithStatus : Prop :=
  ∀ s : State,
    ∃ t b, exec (.rdsr 0#8) s = .next t ∧ t.resp = some b ∧ b.toNat = s.status.toNat % 16 ∧
      (statusLegal s.status = true → b = s.status) ∧ (statusLegal s.status = true → s.faulted = false → b = 0x00#8) ∧
      (∀ a, t.byteAt a = s.byteAt a) ∧ t.status = s.status ∧ t.acc = s.acc ∧ t.inputs = s.inputs ∧ t.index = s.index + 1

/-- R83: `rdsr 1` responds with ACC in every state and changes no state. -/
def Obligations.RdsrRespondsWithAcc : Prop :=
  ∀ s : State,
    ∃ t, exec (.rdsr 1#8) s = .next t ∧ t.resp = some s.acc ∧
      (∀ a, t.byteAt a = s.byteAt a) ∧ t.status = s.status ∧ t.acc = s.acc ∧ t.inputs = s.inputs ∧ t.index = s.index + 1

/-- 00_scope.md R12, 92_eei_decisions.md D27: `ldb` out of the fault state and a well-formed `rdsr` respond; no other command and no
ignored or faulting one does. -/
def Obligations.OnlyLdbAndRdsrRespond : Prop :=
  ∀ (i : Instr) (s t : State), exec i s = .next t →
    (t.resp ≠ none ↔ ((∃ addr, i = .ldb addr) ∧ s.faulted = false) ∨ ∃ csr, i = .rdsr csr ∧ csr.toNat < 2)

/-! Standard timing -/

/-- 20_memory.md R46: the addresses the packing commands compute; those of a slot run from 38 to 53. -/
def Obligations.AddressesOfThePackingCommands : Prop :=
  (∀ slot : BitVec 3,
    (slotBase slot).toNat = 38 + 2 * slot.toNat ∧ (slotBase slot).toNat ≤ 52 ∧
    (nextAddr (slotBase slot)).toNat = (slotBase slot).toNat + 1 ∧ (nextAddr (slotBase slot)).toNat ≤ 53) ∧
  mfgAddr.toNat = 8 ∧ gammaAddr.toNat = 23 ∧ spanAddrs.map BitVec.toNat = List.range 127 ∧ csumAddr.toNat = 127

/-- 41_standard_timing.md R90: `st.set` with legal operands packs the two bytes of its slot and changes nothing else. -/
def Obligations.StSetPacksItsSlot : Prop :=
  ∀ (s : State) (slot : BitVec 3) (hsize : BitVec 12) (vfreq : BitVec 8) (aspect : BitVec 2), s.faulted = false →
    256 ≤ hsize.toNat → hsize.toNat ≤ 2288 → 60 ≤ vfreq.toNat → vfreq.toNat ≤ 123 →
    ∃ t b0 b1, exec (.stSet slot hsize vfreq aspect) s = .next t ∧
      t.byteAt (slotBase slot) = some b0 ∧ b0.toNat = hsize.toNat / 8 - 31 ∧
      t.byteAt (nextAddr (slotBase slot)) = some b1 ∧ b1.toNat = 64 * aspect.toNat + (vfreq.toNat - 60) ∧
      (∀ a, a ≠ slotBase slot → a ≠ nextAddr (slotBase slot) → t.byteAt a = s.byteAt a) ∧
      t.status = s.status ∧ t.acc = s.acc ∧ t.resp = none ∧ t.inputs = s.inputs ∧ t.index = s.index + 1

/-- R91: `st.unset` writes the sentinel in both bytes of its slot and changes nothing else. -/
def Obligations.StUnsetWritesTheSentinel : Prop :=
  ∀ (s : State) (slot : BitVec 3), s.faulted = false →
    ∃ t, exec (.stUnset slot) s = .next t ∧ t.byteAt (slotBase slot) = some 0x01#8 ∧
      t.byteAt (nextAddr (slotBase slot)) = some 0x01#8 ∧
      (∀ a, a ≠ slotBase slot → a ≠ nextAddr (slotBase slot) → t.byteAt a = s.byteAt a) ∧
      t.status = s.status ∧ t.acc = s.acc ∧ t.resp = none ∧ t.inputs = s.inputs ∧ t.index = s.index + 1

/-- R92: for legal operands `hsize div 8` runs from 32 to 286 and byte 0 from 1 to 255, the offset from 0 to 63, nothing is truncated, and byte 1
takes every value. -/
def Obligations.PackedTimingBytesInRange : Prop :=
  (∀ hsize : BitVec 12, 256 ≤ hsize.toNat → hsize.toNat ≤ 2288 →
    32 ≤ hsize.toNat / 8 ∧ hsize.toNat / 8 ≤ 286 ∧ (stByte0 hsize).toNat + 31 = hsize.toNat / 8 ∧ 1 ≤ (stByte0 hsize).toNat) ∧
  (∀ (vfreq : BitVec 8) (aspect : BitVec 2), 60 ≤ vfreq.toNat → vfreq.toNat ≤ 123 →
    (stByte1 vfreq aspect).toNat % 64 + 60 = vfreq.toNat ∧ (stByte1 vfreq aspect).toNat / 64 = aspect.toNat) ∧
  (∀ b : Byte, ∃ (vfreq : BitVec 8) (aspect : BitVec 2),
    60 ≤ vfreq.toNat ∧ vfreq.toNat ≤ 123 ∧ stByte1 vfreq aspect = b)

/-- R93: `st.set` of a legal triple leaves the sentinel in its slot exactly for `hsize` 256 to 263, `vfreq` 61, `aspect` 0, and does not refuse
that triple. -/
def Obligations.SentinelCollidesWithOneTriple : Prop :=
  ∀ (s : State) (slot : BitVec 3) (hsize : BitVec 12) (vfreq : BitVec 8) (aspect : BitVec 2), s.faulted = false →
    256 ≤ hsize.toNat → hsize.toNat ≤ 2288 → 60 ≤ vfreq.toNat → vfreq.toNat ≤ 123 →
    ∃ t, exec (.stSet slot hsize vfreq aspect) s = .next t ∧ t.faulted = false ∧
      (t.byteAt (slotBase slot) = some 0x01#8 ∧ t.byteAt (nextAddr (slotBase slot)) = some 0x01#8 ↔
        hsize.toNat ≤ 263 ∧ vfreq.toNat = 61 ∧ aspect = 0#2)

/-- R94: a size in range that is no multiple of 8 is no fault and packs as the size with its low 3 bits dropped (1366 as 1360); 2289 to 2295
would give byte 0 the value 255 too, but fault (log 11). -/
def Obligations.StSetDropsTheLowThreeBits : Prop :=
  (∀ (s : State) (slot : BitVec 3) (hsize lossy : BitVec 12) (vfreq : BitVec 8) (aspect : BitVec 2),
    256 ≤ hsize.toNat → hsize.toNat ≤ 2288 → lossy.toNat = hsize.toNat - hsize.toNat % 8 →
    exec (.stSet slot hsize vfreq aspect) s = exec (.stSet slot lossy vfreq aspect) s) ∧
  (∀ (s : State) (slot : BitVec 3) (hsize : BitVec 12) (vfreq : BitVec 8) (aspect : BitVec 2), s.faulted = false →
    256 ≤ hsize.toNat → hsize.toNat ≤ 2288 → 60 ≤ vfreq.toNat → vfreq.toNat ≤ 123 →
    ∃ t, exec (.stSet slot hsize vfreq aspect) s = .next t ∧ t.faulted = false) ∧
  stByte0 1366#12 = 0x8B#8 ∧ stByte0 1360#12 = 0x8B#8 ∧
  (∀ (s : State) (slot : BitVec 3) (hsize : BitVec 12) (vfreq : BitVec 8) (aspect : BitVec 2), s.faulted = false →
    2289 ≤ hsize.toNat → hsize.toNat ≤ 2295 →
    stByte0 hsize = 0xFF#8 ∧ ∃ t, exec (.stSet slot hsize vfreq aspect) s = .next t ∧ t.faulted = true)

/-- R95: the inverse recovers the aspect, the rate, and the size but for its low 3 bits. -/
def Obligations.TimingUnpacks : Prop :=
  ∀ (s : State) (slot : BitVec 3) (hsize : BitVec 12) (vfreq : BitVec 8) (aspect : BitVec 2), s.faulted = false →
    256 ≤ hsize.toNat → hsize.toNat ≤ 2288 → 60 ≤ vfreq.toNat → vfreq.toNat ≤ 123 →
    ∃ t b0 b1, exec (.stSet slot hsize vfreq aspect) s = .next t ∧
      t.byteAt (slotBase slot) = some b0 ∧ t.byteAt (nextAddr (slotBase slot)) = some b1 ∧
      (b0.toNat + 31) * 8 = hsize.toNat - hsize.toNat % 8 ∧ (b1.extractLsb' 0 6).toNat + 60 = vfreq.toNat ∧
      b1.extractLsb' 6 2 = aspect

/-! Manufacturer code and gamma -/

/-- 42_vendor_gamma.md R100: `mfg` writes bytes 8 and 9, big-endian, bit 7 of byte 8 zero (log 9), and changes nothing else. -/
def Obligations.MfgPacksThreeLetters : Prop :=
  ∀ (s : State) (l1 l2 l3 : BitVec 5), s.faulted = false →
    ∃ t b8 b9, exec (.mfg l1 l2 l3) s = .next t ∧ t.byteAt mfgAddr = some b8 ∧ t.byteAt (nextAddr mfgAddr) = some b9 ∧
      mfgAddr.toNat = 8 ∧ (nextAddr mfgAddr).toNat = 9 ∧
      b8.toNat = 4 * l1.toNat + l2.toNat / 8 ∧ b9.toNat = 32 * (l2.toNat % 8) + l3.toNat ∧
      (∀ a, a ≠ mfgAddr → a ≠ nextAddr mfgAddr → t.byteAt a = s.byteAt a) ∧
      t.status = s.status ∧ t.acc = s.acc ∧ t.resp = none ∧ t.inputs = s.inputs ∧ t.index = s.index + 1

/-- R102: nothing is checked, bit 7 of byte 8 is always written 0, and the inverse recovers all three indices for every triple; where the unused bit
lies is the spec's own decision D17 (log 9). -/
def Obligations.MfgUnpacksForEveryTriple : Prop :=
  ∀ (s : State) (l1 l2 l3 : BitVec 5), s.faulted = false →
    ∃ t b8 b9, exec (.mfg l1 l2 l3) s = .next t ∧ t.faulted = false ∧ t.byteAt 8#7 = some b8 ∧ t.byteAt 9#7 = some b9 ∧
      b8.getLsbD 7 = false ∧ (b8 ++ b9).extractLsb' 10 5 = l1 ∧ (b8 ++ b9).extractLsb' 5 5 = l2 ∧
      (b8 ++ b9).extractLsb' 0 5 = l3

/-- 42_vendor_gamma.md R101: `gamma` with rounded hundredths in 100 to 354 writes byte 23 and changes nothing else (ties
upward: log 10). -/
def Obligations.GammaPacksItsByte : Prop :=
  ∀ (s : State) (g : BitVec 16), s.faulted = false → 100 ≤ (g.toNat + 5) / 10 → (g.toNat + 5) / 10 ≤ 354 →
    ∃ t b, exec (.gamma g) s = .next t ∧ t.byteAt gammaAddr = some b ∧ gammaAddr.toNat = 23 ∧
      b.toNat + 100 = (g.toNat + 5) / 10 ∧ (∀ a, a ≠ gammaAddr → t.byteAt a = s.byteAt a) ∧
      t.status = s.status ∧ t.acc = s.acc ∧ t.resp = none ∧ t.inputs = s.inputs ∧ t.index = s.index + 1

/-- R104: the range, edge by edge, for all 65536 operands; a performed `gamma` never writes 0xFF, which `stb` still can. That
995 is in and 3545 is out rests on the tie rule (log 10). -/
def Obligations.GammaRangeEdges : Prop :=
  (∀ (s : State) (g : BitVec 16), s.faulted = false →
    ∃ t, exec (.gamma g) s = .next t ∧
      if g.toNat < 995 ∨ 3544 < g.toNat then t.status = 0x09#8 ∧ t.byteAt 23#7 = s.byteAt 23#7
      else t.status = s.status ∧ ∃ b, t.byteAt 23#7 = some b ∧ b.toNat ≤ 254 ∧
        (g.toNat ≤ 1004 → b = 0x00#8) ∧ (3535 ≤ g.toNat → b = 0xFE#8)) ∧
  (∀ s : State, s.faulted = false → ∃ t, exec (.stb 23#7 0xFF#8) s = .next t ∧ t.byteAt 23#7 = some 0xFF#8)

/-- R103: the hundredths are the nearest to `g / 10`, and a tie, which occurs exactly when `g mod 10 = 5`, goes upward (log 10). -/
def Obligations.GammaRoundsToNearestTiesUp : Prop :=
  ∀ g : BitVec 16,
    10 * gammaHundredths g ≤ g.toNat + 5 ∧ g.toNat < 10 * gammaHundredths g + 5 ∧
    (10 * gammaHundredths g = g.toNat + 5 ↔ g.toNat % 10 = 5)

/-! Checksum -/

/-- 43_checksum.md R110, R111: `csum` leaves in ACC the mathematical sum of bytes 0 to 126 modulo 256, in byte 127 its negation, and changes nothing
else; the bytes summed and byte 127 add to 0 modulo 256 whatever never-written bytes read as (R114). -/
def Obligations.CsumFinalizes : Prop :=
  ∀ s : State, s.faulted = false →
    ∃ t b, exec .csum s = .next t ∧ t.acc.toNat = s.byteSum 127 % 256 ∧ t.byteAt csumAddr = some b ∧ csumAddr.toNat = 127 ∧
      b.toNat = (256 - t.acc.toNat) % 256 ∧ (s.byteSum 127 + b.toNat) % 256 = 0 ∧
      (∀ a, a ≠ csumAddr → t.byteAt a = s.byteAt a) ∧
      t.status = s.status ∧ t.resp = none ∧ t.inputs = s.inputs ∧ t.index = s.index + 1

/-- R111 (c): once bytes 0 to 126 have been written, the 128 bytes the record holds after `csum` sum to 0 modulo 256. -/
def Obligations.FinalizedRecordSumsToZero : Prop :=
  ∀ s : State, s.faulted = false → s.writtenBelow 127 →
    ∃ t, exec .csum s = .next t ∧ t.writtenBelow 128 ∧ t.byteSum 128 % 256 = 0

/-- R112: a second `csum`, with no write to bytes 0 to 126 between the two, leaves ACC and every byte as they are; so does one after a store to byte
127. Bytes 0 to 126 have been written (R114). -/
def Obligations.CsumIsIdempotent : Prop :=
  ∀ (s : State) (v : Byte), s.faulted = false → s.writtenBelow 127 →
    ∃ t u w x, exec .csum s = .next t ∧ exec .csum t = .next u ∧ u.acc = t.acc ∧ (∀ a, u.byteAt a = t.byteAt a) ∧
      exec (.stb 127#7 v) t = .next w ∧ exec .csum w = .next x ∧ x.acc = t.acc ∧ (∀ a, x.byteAt a = t.byteAt a)

/-- R112: what `csum` leaves in ACC and byte 127 depends on bytes 0 to 126 only, whatever else differs between two unfaulted states. -/
def Obligations.CsumDependsOnTheSpanOnly : Prop :=
  ∀ s t : State, s.faulted = false → t.faulted = false → s.writtenBelow 127 →
    (∀ a : Addr, a.toNat < 127 → t.byteAt a = s.byteAt a) →
    ∃ s' t', exec .csum s = .next s' ∧ exec .csum t = .next t' ∧ t'.acc = s'.acc ∧ t'.byteAt 127#7 = s'.byteAt 127#7

/-! Rules of the whole machine -/

/-- 10_state.md R20, 20_memory.md R41: a step that changes what a byte of the record holds took a reset, or a word of a command that writes that
byte, out of the fault state. -/
def Obligations.RecordChangesOnlyWhereACommandWrites : Prop :=
  ∀ (s t : State) (a : Addr), step s = .next t → t.byteAt a ≠ s.byteAt a →
    (∃ rest, s.inputs = .reset :: rest) ∨
    (s.faulted = false ∧ ∃ w rest i, s.inputs = .command w :: rest ∧ decode w = .ok i ∧ faultOf i = none ∧ writesTo i a)

/-- 10_state.md R22: a step that changes ACC took a reset, or the word of `csum` out of the fault state. -/
def Obligations.AccChangesOnlyByCsumAndReset : Prop :=
  ∀ s t : State, step s = .next t → t.acc ≠ s.acc →
    (∃ rest, s.inputs = .reset :: rest) ∨ (s.faulted = false ∧ ∃ rest, s.inputs = .command 0x80000000#32 :: rest)

/-- 10_state.md R21: a step that changes STATUS took a reset, or took a fault from a state with FAULT 0. -/
def Obligations.StatusChangesOnlyByFaultAndReset : Prop :=
  ∀ s t : State, step s = .next t → t.status ≠ s.status →
    (∃ rest, s.inputs = .reset :: rest) ∨ (s.faulted = false ∧ ∃ c, t.status = faultStatus c)

/-- 10_state.md R25: every command advances the index by 1, whatever its outcome, and takes no further input (the model's own fields, logs 1, 4). -/
def Obligations.EveryCommandAdvancesTheIndex : Prop :=
  ∀ (i : Instr) (s : State), ∃ t, exec i s = .next t ∧ t.index = s.index + 1 ∧ t.inputs = s.inputs

/-- 20_memory.md R41, R48: no command's effect depends on a byte it does not read. Two states that differ in such a byte only give the same
STATUS, ACC and response, and the same record at every other byte. The bytes the command does read have been written, since two runs need not read
a never-written byte alike (log 3). Where the command is performed and writes that very byte, what it writes there is the same too. -/
def Obligations.UnreadByteDoesNotInterfere : Prop :=
  ∀ (i : Instr) (s : State) (b : Addr) (v : Byte), ¬ readsFrom i b → (∀ a, readsFrom i a → s.byteAt a ≠ none) →
    ∃ t t', exec i s = .next t ∧ exec i (s.writeByte b v) = .next t' ∧ t'.status = t.status ∧ t'.acc = t.acc ∧
      t'.resp = t.resp ∧ (∀ a, a ≠ b → t'.byteAt a = t.byteAt a) ∧
      (s.faulted = false → faultOf i = none → writesTo i b → t'.byteAt b = t.byteAt b)

/-- 20_memory.md R48, R49: a byte written by `stb` is what a later `ldb` of that address responds with, after any sequence of commands that meet no
fault condition and do not write it. -/
def Obligations.StoredByteIsReadBack : Prop :=
  ∀ (s : State) (addr : BitVec 7) (val : BitVec 8) (between : List Instr), s.faulted = false →
    (∀ i ∈ between, faultOf i = none ∧ ¬ writesTo i addr) →
    ∃ t, execAll (.stb addr val :: between ++ [.ldb addr]) s = .next t ∧ t.resp = some val

/-- 70_reset_and_hazards.md R166: two commands that write disjoint bytes and read none, both performed, leave the same block in either order. -/
def Obligations.DisjointCommandsCommute : Prop :=
  ∀ (s : State) (i j : Instr), s.faulted = false → faultOf i = none → faultOf j = none →
    (∀ a, ¬ readsFrom i a) → (∀ a, ¬ readsFrom j a) → (∀ a, ¬ (writesTo i a ∧ writesTo j a)) →
    ∃ t u, execAll [i, j] s = .next t ∧ execAll [j, i] s = .next u ∧ u.status = t.status ∧ u.acc = t.acc ∧
      ∀ a, u.byteAt a = t.byteAt a

/-! The end of a run -/

/-- 70_reset_and_hazards.md R168: where nothing but its words is given, a run ends well exactly when it ends with FAULT 0; then no word that asks for a
response byte went without one. A run that faulted did not end well. -/
def Obligations.RunEndsWellUnlessItFaults : Prop :=
  ∀ (s : State) (ws : List CmdWord), s.inputs = [] →
    (runEndedWell s ws ↔ (runAfterReset s ws).1.faulted = false)

/-- R168: the result of a run whose record was built without a fault and has every byte written is 128 bytes, the `a`-th the byte at address `a`. -/
def Obligations.RunResultIsTheRecord : Prop :=
  ∀ (s : State) (build : List CmdWord), s.inputs = [] → (runAfterReset s build).1.faulted = false →
    (runAfterReset s build).1.writtenBelow 128 →
    ∃ bytes, runResult s (build ++ dumpWords) = some bytes ∧ bytes.length = 128 ∧
      ∀ a : Addr, bytes[a.toNat]? = (runAfterReset s build).1.byteAt a

/-- 70_reset_and_hazards.md R164, R168: with `csum` after the last write and before the `dump`, the result of the run sums to 0 modulo 256. Bytes 0 to
126 have been written (R162). -/
def Obligations.FinalizedRunResultSumsToZero : Prop :=
  ∀ (s : State) (build : List CmdWord), s.inputs = [] → (runAfterReset s build).1.faulted = false →
    (runAfterReset s build).1.writtenBelow 127 →
    ∃ bytes, runResult s (build ++ [encode .csum] ++ dumpWords) = some bytes ∧ bytes.length = 128 ∧
      (bytes.map BitVec.toNat).sum % 256 = 0

/-! Host procedures: no commands of the block (00_scope.md R4), for every value of their parameters -/

/-- 48_host_procedures.md R121: whatever the slot held, what it holds after a descriptor is written is a pixel-timing record, by its first two bytes,
exactly when the descriptor is of that variant; every other variant has its own type byte at offset 3 (the place is R134's,
log 16). -/
def Obligations.DescriptorTagTellsTheVariant : Prop :=
  ∀ (f : DescriptorFormat) (d : Descriptor) (b : SlotBytes),
    (SlotBytes.isPixelTiming (SlotBytes.overwrite b (d.pack f)) ↔ ∃ t, d = .pixelTiming t) ∧
    match d with
    | .pixelTiming _ => True
    | .monitorRange _ => SlotBytes.overwrite b (d.pack f) 3 = f.types.monitorRange
    | .text kind _ => SlotBytes.overwrite b (d.pack f) 3 = f.types.ofKind kind
    | .dummy => SlotBytes.overwrite b (d.pack f) 3 = f.types.dummy

/-- R121: unpacking what a slot holds after packing gives the descriptor back, for every layout of the sync fields and of the misc byte that places
every bit once (R125, R126, U14). A text comes back where it fits the payload and does not hold the sentinel (R129). -/
def Obligations.DescriptorUnpacks : Prop :=
  ∀ (f : DescriptorFormat) (d : Descriptor) (b : SlotBytes),
    (∀ kind chars, d = .text kind chars → chars.length ≤ 13 ∧ f.newline ∉ chars) →
    Descriptor.unpack f (SlotBytes.overwrite b (d.pack f)) = some d

/-- R122, R123, R127: a mode has a pixel-timing record exactly when R127's bounds hold and its clock fits 16 bits (U16); that no difference is
negative and that the clock does not round to 0 are the model's conditions (logs 16, 18). The record holds the mode's quantities and R122's derived ones.
The rounded clock is nearest, with a tie either way (log 19). -/
def Obligations.PixelTimingOfAMode : Prop :=
  ∀ (p : HostParams) (m : DisplayMode) (width height : Nat),
    ((∃ d, pixelTiming p m width height = .ok d) ↔
      (m.hactive ≤ 0xFFF ∧ m.htotal - m.hactive ≤ 0xFFF ∧ m.hsyncStart - m.hactive ≤ 0x3FF ∧ m.hsyncEnd - m.hsyncStart ≤ 0x3FF) ∧
      (m.vactive ≤ 0xFFF ∧ m.vtotal - m.vactive ≤ 0xFFF ∧ m.vsyncStart - m.vactive ≤ 0x3F ∧ m.vsyncEnd - m.vsyncStart ≤ 0x3F) ∧
      (width ≤ 0xFFF ∧ height ≤ 0xFFF) ∧
      (m.hactive ≤ m.htotal ∧ m.hactive ≤ m.hsyncStart ∧ m.hsyncStart ≤ m.hsyncEnd) ∧
      (m.vactive ≤ m.vtotal ∧ m.vactive ≤ m.vsyncStart ∧ m.vsyncStart ≤ m.vsyncEnd) ∧
      0 < clockTens p m.clock ∧ clockTens p m.clock < 65536) ∧
    (∀ d, pixelTiming p m width height = .ok d →
      (d.hActive.toNat = m.hactive ∧ d.hActive.toNat + d.hBlank.toNat = m.htotal ∧ d.hActive.toNat + d.hOffset.toNat = m.hsyncStart ∧
        m.hsyncStart + d.hWidth.toNat = m.hsyncEnd) ∧
      (d.vActive.toNat = m.vactive ∧ d.vActive.toNat + d.vBlank.toNat = m.vtotal ∧ d.vActive.toNat + d.vOffset.toNat = m.vsyncStart ∧
        m.vsyncStart + d.vWidth.toNat = m.vsyncEnd) ∧
      d.width.toNat = width ∧ d.height.toNat = height ∧ d.hPositive = m.hsyncPositive ∧ d.vPositive = m.vsyncPositive ∧
      d.clock.toNat = clockTens p m.clock) ∧
    (10 * clockTens p m.clock ≤ m.clock + 5 ∧ m.clock ≤ 10 * clockTens p m.clock + 5)

/-- R123, R124, R126 for what a slot holds after a pixel-timing record is written: the clock little-endian in the first two bytes, and for each pair of
12-bit values two low bytes and the shared byte, the first value's nibble in its top 4 bits. R128 for the monitor range of a mode: one below and one above
the refresh rate and the integer quotient of clock and total width, and the clock in 10 MHz units rounded up, as the ceiling or as the quotient plus
one; the tag zero, the type byte, the 7-byte padding. The offsets are R134's and the quotient the model's (log 16). -/
def Obligations.DescriptorBytes : Prop :=
  (∀ (f : DescriptorFormat) (d : PixelTiming) (b c : SlotBytes), c = SlotBytes.overwrite b ((Descriptor.pixelTiming d).pack f) →
    (c 0).toNat + 256 * (c 1).toNat = d.clock.toNat ∧
    ((c 2).toNat = d.hActive.toNat % 256 ∧ (c 3).toNat = d.hBlank.toNat % 256 ∧
      (c 4).toNat = 16 * (d.hActive.toNat / 256) + d.hBlank.toNat / 256) ∧
    ((c 5).toNat = d.vActive.toNat % 256 ∧ (c 6).toNat = d.vBlank.toNat % 256 ∧
      (c 7).toNat = 16 * (d.vActive.toNat / 256) + d.vBlank.toNat / 256) ∧
    ((c 12).toNat = d.width.toNat % 256 ∧ (c 13).toNat = d.height.toNat % 256 ∧
      (c 14).toNat = 16 * (d.width.toNat / 256) + d.height.toNat / 256)) ∧
  (∀ (p : HostParams) (m : DisplayMode) (d : MonitorRange) (b c : SlotBytes), monitorRange p m = .ok d →
    c = SlotBytes.overwrite b ((Descriptor.monitorRange d).pack p.format) →
    (c 0 = 0x00#8 ∧ c 1 = 0x00#8 ∧ c 3 = p.format.types.monitorRange) ∧
    ((c 5).toNat + 1 = m.refresh ∧ (c 6).toNat = m.refresh + 1) ∧
    ((c 7).toNat + 1 = m.clock / m.htotal ∧ (c 8).toNat = m.clock / m.htotal + 1) ∧
    (if p.clockPlusOne then (c 9).toNat = m.clock / 10000 + 1
      else m.clock ≤ 10000 * (c 9).toNat ∧ 10000 * (c 9).toNat < m.clock + 10000) ∧
    ∀ k : Fin 7, c ⟨11 + k.val, by omega⟩ = p.format.rangePadding[k])

/-- R129: a subtype whose type byte is none of the three textual ones ends the host's run. For one of the three, a string writes the zero tag and its
type byte, up to 13 characters, the sentinel after them where the string is shorter than 13, and no other byte of the slot (offsets R134's,
log 16). -/
def Obligations.StringDescriptorPayload : Prop :=
  (∀ (f : DescriptorFormat) (subtype : Byte) (text : List Byte), (∀ kind, subtype ≠ f.types.ofKind kind) →
    stringDescriptor f subtype text = .error .notTextualSubtype) ∧
  (∀ (f : DescriptorFormat) (kind : StringKind) (text : List Byte) (b : SlotBytes),
    ∃ d, stringDescriptor f (f.types.ofKind kind) text = .ok d ∧
      SlotBytes.overwrite b (d.pack f) 0 = 0x00#8 ∧ SlotBytes.overwrite b (d.pack f) 1 = 0x00#8 ∧
      SlotBytes.overwrite b (d.pack f) 3 = f.types.ofKind kind ∧
      ∀ o : Fin 18, o ≠ 0 → o ≠ 1 → o ≠ 3 →
        SlotBytes.overwrite b (d.pack f) o =
          if o.val < 5 then b o
          else if h : o.val - 5 < text.length then text[o.val - 5]
          else if o.val - 5 = text.length then f.newline
          else b o)

/-- R130: default initialization, performed after any reset, ends with FAULT 0 and every byte written: the header, the manufacturer code, version and
basic parameters, the year, the three established-timing bits and no other, standard-timing slots 0 to 4 with the encodings of their modes and 5 to 7
with the sentinel, all else 0; byte 127 too, since the finalizer does not run. -/
def Obligations.DefaultInitialization : Prop :=
  ∀ (p : HostParams) (s : State) (lines : List AsmLine), defaultInit p = .ok lines →
    ∃ ws t year, assembleAll lines = some ws ∧ (runAfterReset s ws).1 = t ∧ t.faulted = false ∧ t.writtenBelow 128 ∧
      (List.range 8).map (fun k => t.byteAt (BitVec.ofNat 7 k)) =
        [0x00#8, 0xFF#8, 0xFF#8, 0xFF#8, 0xFF#8, 0xFF#8, 0xFF#8, 0x00#8].map some ∧
      (t.byteAt 8#7 = some ((0#1 ++ p.mfgPlaceholder.1 ++ p.mfgPlaceholder.2.1 ++ p.mfgPlaceholder.2.2).extractLsb' 8 8) ∧
        t.byteAt 9#7 = some ((0#1 ++ p.mfgPlaceholder.1 ++ p.mfgPlaceholder.2.1 ++ p.mfgPlaceholder.2.2).extractLsb' 0 8)) ∧
      (t.byteAt 17#7 = some year ∧ year.toNat + 1990 = p.currentYear) ∧
      (List.range 7).map (fun k => t.byteAt (BitVec.ofNat 7 (18 + k))) =
        [0x01#8, 0x03#8, p.inputTypeDefault, 52#8, 30#8, 0x78#8, p.featuresDefault].map some ∧
      (∀ k : Fin 3, ∃ b, t.byteAt (BitVec.ofNat 7 (35 + k.val)) = some b ∧
        ∀ j : Fin 8, b.getLsbD j.val = true ↔ ⟨k, j⟩ ∈ p.established.places) ∧
      (List.range 16).map (fun k => t.byteAt (BitVec.ofNat 7 (38 + k))) =
        [0xD1#8, p.aspect16x9 ++ 0#6, 0x81#8, p.aspect16x9 ++ 0#6, 0x61#8, p.aspect4x3 ++ 0#6, 0x45#8, p.aspect4x3 ++ 0#6,
          0x31#8, p.aspect4x3 ++ 0#6, 0x01#8, 0x01#8, 0x01#8, 0x01#8, 0x01#8, 0x01#8].map some ∧
      ∀ a : Addr, 10 ≤ a.toNat ∧ a.toNat ≤ 16 ∨ 25 ≤ a.toNat ∧ a.toNat ≤ 34 ∨ 54 ≤ a.toNat → t.byteAt a = some 0x00#8
end

