-- ==== Sys2Proof/Laws/Decode.lean ====
section
/-! SUPPORT. The opcode table's rows and the words they accept (30_encoding.md R69). -/

namespace Sys2Proof

theorem OpRow.accepts_iff (r : OpRow) (w : CmdWord) : r.accepts w = true ↔ w &&& r.mask = r.pattern := by
  simp [OpRow.accepts]

/-- "every `mask` includes bits 31:28" (R69), so an accepted word has its row's opcode. -/
theorem opField_of_accepts {r : OpRow} (hr : r ∈ opTable) {w : CmdWord} (h : r.accepts w = true) :
    opField w = opField r.pattern := by
  rw [OpRow.accepts_iff] at h
  have hm : ∀ q ∈ opTable, opField q.mask = 15#4 := by decide
  have : opField (w &&& r.mask) = opField w := by
    have e : opField (w &&& r.mask) = opField w &&& opField r.mask := by
      simp [opField, BitVec.extractLsb'_and]
    rw [e, hm r hr]
    have : (15#4 : BitVec 4) = BitVec.allOnes 4 := by decide
    rw [this, BitVec.and_allOnes]
  rw [← this, h]

/-- "The rows' `match` values differ in bits 31:28" (R69): the opcode tells the row. -/
theorem opTable_opField_injective : ∀ r ∈ opTable, ∀ q ∈ opTable, opField r.pattern = opField q.pattern → r = q := by
  decide

end Sys2Proof
end

