-- ==== Sys2Proof/Laws/Descriptor.lean ====
section
/-! SUPPORT. What a slot holds after writes, the offsets each kind of descriptor writes, what a type byte names, and when a host field fits. -/

namespace Sys2Proof.Machine

theorem SlotBytes.overwrite_append (b : SlotBytes) (u w : List (Fin 18 × Byte)) :
    SlotBytes.overwrite b (u ++ w) = SlotBytes.overwrite (SlotBytes.overwrite b u) w := List.foldl_append

/-- An offset that is not written keeps its byte. -/
theorem SlotBytes.overwrite_other {writes : List (Fin 18 × Byte)} {o : Fin 18} (h : o ∉ writes.map Prod.fst) (b : SlotBytes) :
    SlotBytes.overwrite b writes o = b o := by
  induction writes generalizing b with
  | nil => rfl
  | cons q rest ih =>
    rw [List.map_cons, List.mem_cons, not_or] at h
    exact (ih h.2 _).trans (if_neg h.1)

/-- An offset that is written once holds what was written there. -/
theorem SlotBytes.overwrite_written {writes : List (Fin 18 × Byte)} (hn : (writes.map Prod.fst).Nodup) {q : Fin 18 × Byte}
    (hq : q ∈ writes) (b : SlotBytes) : SlotBytes.overwrite b writes q.1 = q.2 := by
  induction writes generalizing b with
  | nil => cases hq
  | cons p rest ih =>
    rw [List.map_cons, List.nodup_cons] at hn
    rcases List.mem_cons.1 hq with rfl | hq
    · exact (SlotBytes.overwrite_other hn.1 _).trans (if_pos rfl)
    · exact ih hn.2 hq _

theorem packPixelTiming_offsets (f : DescriptorFormat) (d : PixelTiming) :
    (packPixelTiming f d).map Prod.fst = List.finRange 18 := rfl

theorem packDummy_offsets (f : DescriptorFormat) : (packDummy f).map Prod.fst = List.finRange 18 := by
  simp [packDummy, Function.comp_def]

theorem packMonitorRange_offsets (f : DescriptorFormat) (d : MonitorRange) :
    (packMonitorRange f d).map Prod.fst = List.finRange 18 := by
  rw [packMonitorRange, List.map_append, List.map_fst_zip (by simp)]
  rfl

theorem stringPayload_length (newline : Byte) (chars : List Byte) : (stringPayload newline chars).length ≤ 13 := by
  rw [stringPayload]
  split
  · simp
    omega
  · simp

/-- A string writes offsets 0, 1 and 3 and a start of the payload, each once. -/
theorem packString_offsets (f : DescriptorFormat) (kind : StringKind) (chars : List Byte) :
    (packString f kind chars).map Prod.fst = [0, 1, 3] ++ payloadOffsets.take (stringPayload f.newline chars).length := by
  rw [packString, List.map_append]
  congr 1
  generalize stringPayload f.newline chars = m
  induction payloadOffsets generalizing m with
  | nil => simp
  | cons o rest ih =>
    cases m with
    | nil => rfl
    | cons v m => simp [ih]

theorem Descriptor.pack_offsets_nodup (f : DescriptorFormat) (d : Descriptor) : ((d.pack f).map Prod.fst).Nodup := by
  cases d with
  | pixelTiming d => exact packPixelTiming_offsets f d ▸ List.nodup_finRange 18
  | monitorRange d => exact packMonitorRange_offsets f d ▸ List.nodup_finRange 18
  | dummy => exact packDummy_offsets f ▸ List.nodup_finRange 18
  | text kind chars =>
    rw [Descriptor.pack, packString_offsets]
    have h : ([0, 1, 3] ++ payloadOffsets : List (Fin 18)).Nodup := by decide
    exact h.sublist (List.Sublist.append (List.Sublist.refl _) (List.take_sublist _ _))

/-- What a slot holds at an offset the descriptor writes. -/
theorem Descriptor.overwrite_pack {f : DescriptorFormat} {d : Descriptor} {o : Fin 18} {v : Byte} (h : (o, v) ∈ d.pack f) (b : SlotBytes) :
    SlotBytes.overwrite b (d.pack f) o = v := SlotBytes.overwrite_written (d.pack_offsets_nodup f) h b

/-- The type byte of a subtype names that subtype. -/
theorem TypeBytes.kindOf_ofKind (t : TypeBytes) (kind : StringKind) : t.kindOf (t.ofKind kind) = some kind := by
  have h := t.distinct
  simp only [List.nodup_cons, List.mem_cons, not_or] at h
  cases kind
  · simp [TypeBytes.kindOf, TypeBytes.ofKind]
  · simp [TypeBytes.kindOf, TypeBytes.ofKind, Ne.symm h.1.1]
  · simp [TypeBytes.kindOf, TypeBytes.ofKind, Ne.symm h.1.2.1, Ne.symm h.2.1.1]

theorem TypeBytes.kindOf_eq_none {t : TypeBytes} {b : Byte} (h : ∀ kind, b ≠ t.ofKind kind) : t.kindOf b = none := by
  simp [TypeBytes.kindOf, show b ≠ t.monitorName from h .monitorName, show b ≠ t.genericString from h .genericString,
    show b ≠ t.serialNumber from h .serialNumber]

theorem putBit_getLsbD (b : Byte) (i j : Fin 8) (v : Bool) : (putBit b i v).getLsbD j.val = if i = j then v else b.getLsbD j.val := by
  have hj := j.isLt
  by_cases hij : i = j
  · subst hij
    cases v <;> simp [putBit]
  · have hne : i.val ≠ j.val := fun h => hij (Fin.ext h)
    cases v <;> simp [putBit, hij, hj] <;> omega

/-- The bits set in an established-timings byte are those of the three modes that lie in it. -/
theorem establishedByte_getLsbD (e : EstablishedBits) (k : Fin 3) (j : Fin 8) :
    (establishedByte e k).getLsbD j.val = true ↔ ⟨k, j⟩ ∈ e.places := by
  have h (l : List EstablishedPlace) (b : Byte) :
      (l.foldl (fun b q => if q.byte = k then putBit b q.bit true else b) b).getLsbD j.val = true ↔ b.getLsbD j.val = true ∨ ⟨k, j⟩ ∈ l := by
    induction l generalizing b with
    | nil => simp
    | cons q rest ih =>
      obtain ⟨qk, qj⟩ := q
      rw [List.foldl_cons, ih, List.mem_cons]
      by_cases hk : qk = k
      · subst hk
        rw [if_pos rfl, putBit_getLsbD]
        by_cases hj : qj = j
        · simp [hj]
        · simp [hj, Ne.symm hj]
      · simp [hk, Ne.symm hk]
  rw [establishedByte, h]
  simp

/-- A host field is taken exactly when it fits, and is the number itself. -/
theorem hostField_eq_ok {stop : HostStop} {w n : Nat} {v : BitVec w} : hostField stop w n = .ok v ↔ v.toNat = n := by
  rw [hostField, fitField]
  by_cases h : n < 2 ^ w
  · simp only [if_pos h]
    rw [Except.ok.injEq, BitVec.toNat_eq, BitVec.toNat_ofNat, Nat.mod_eq_of_lt h]
    exact eq_comm
  · simp only [if_neg h, reduceCtorEq, false_iff]
    have := v.isLt
    omega

theorem modeDiff_eq_ok {a b n : Nat} : modeDiff a b = .ok n ↔ b ≤ a ∧ a - b = n := by
  rw [modeDiff]
  split <;> simp [*]

/-- The rounded clock is a nearest one (48_host_procedures.md R123). -/
theorem clockTens_nearest (p : HostParams) (clock : Nat) :
    10 * clockTens p clock ≤ clock + 5 ∧ clock ≤ 10 * clockTens p clock + 5 := by
  rw [clockTens]
  split <;> omega

end Sys2Proof.Machine
end

