-- ==== Sys2Proof/Laws/State.lean ====
section
/-! SUPPORT. One lemma per field per update of State, so that no proof unfolds a record update; and how the STATUS fields read after each. -/

namespace Sys2Proof.Machine

section Fields
variable (s : State) (a b : Addr) (v w : Byte) (c : Cause)

@[simp] theorem State.writeByte_mem : (s.writeByte a v).mem = s.mem.write a.toNat v := rfl
@[simp] theorem State.writeByte_status : (s.writeByte a v).status = s.status := rfl
@[simp] theorem State.writeByte_acc : (s.writeByte a v).acc = s.acc := rfl
@[simp] theorem State.writeByte_inputs : (s.writeByte a v).inputs = s.inputs := rfl
@[simp] theorem State.writeByte_resp : (s.writeByte a v).resp = s.resp := rfl
@[simp] theorem State.writeByte_index : (s.writeByte a v).index = s.index := rfl

@[simp] theorem State.writePair_mem :
    (s.writePair a v w).mem = (s.mem.write a.toNat v).write (nextAddr a).toNat w := rfl
@[simp] theorem State.writePair_status : (s.writePair a v w).status = s.status := rfl
@[simp] theorem State.writePair_acc : (s.writePair a v w).acc = s.acc := rfl
@[simp] theorem State.writePair_inputs : (s.writePair a v w).inputs = s.inputs := rfl
@[simp] theorem State.writePair_resp : (s.writePair a v w).resp = s.resp := rfl
@[simp] theorem State.writePair_index : (s.writePair a v w).index = s.index := rfl

@[simp] theorem State.setAcc_mem : (s.setAcc v).mem = s.mem := rfl
@[simp] theorem State.setAcc_status : (s.setAcc v).status = s.status := rfl
@[simp] theorem State.setAcc_acc : (s.setAcc v).acc = v := rfl
@[simp] theorem State.setAcc_inputs : (s.setAcc v).inputs = s.inputs := rfl
@[simp] theorem State.setAcc_resp : (s.setAcc v).resp = s.resp := rfl
@[simp] theorem State.setAcc_index : (s.setAcc v).index = s.index := rfl

@[simp] theorem State.respond_mem : (s.respond v).mem = s.mem := rfl
@[simp] theorem State.respond_status : (s.respond v).status = s.status := rfl
@[simp] theorem State.respond_acc : (s.respond v).acc = s.acc := rfl
@[simp] theorem State.respond_inputs : (s.respond v).inputs = s.inputs := rfl
@[simp] theorem State.respond_resp : (s.respond v).resp = some v := rfl
@[simp] theorem State.respond_index : (s.respond v).index = s.index := rfl

@[simp] theorem State.quiet_mem : s.quiet.mem = s.mem := rfl
@[simp] theorem State.quiet_status : s.quiet.status = s.status := rfl
@[simp] theorem State.quiet_acc : s.quiet.acc = s.acc := rfl
@[simp] theorem State.quiet_inputs : s.quiet.inputs = s.inputs := rfl
@[simp] theorem State.quiet_resp : s.quiet.resp = none := rfl
@[simp] theorem State.quiet_index : s.quiet.index = s.index := rfl

@[simp] theorem State.advance_mem : s.advance.mem = s.mem := rfl
@[simp] theorem State.advance_status : s.advance.status = s.status := rfl
@[simp] theorem State.advance_acc : s.advance.acc = s.acc := rfl
@[simp] theorem State.advance_inputs : s.advance.inputs = s.inputs := rfl
@[simp] theorem State.advance_resp : s.advance.resp = s.resp := rfl
@[simp] theorem State.advance_index : s.advance.index = s.index + 1 := rfl

@[simp] theorem State.raise_mem : (s.raise c).mem = s.mem := rfl
@[simp] theorem State.raise_status : (s.raise c).status = faultStatus c := rfl
@[simp] theorem State.raise_acc : (s.raise c).acc = s.acc := rfl
@[simp] theorem State.raise_inputs : (s.raise c).inputs = s.inputs := rfl
@[simp] theorem State.raise_resp : (s.raise c).resp = s.resp := rfl
@[simp] theorem State.raise_index : (s.raise c).index = s.index := rfl

@[simp] theorem State.hostReset_mem : s.hostReset.mem = [] := rfl
@[simp] theorem State.hostReset_status : s.hostReset.status = 0x00#8 := rfl
@[simp] theorem State.hostReset_acc : s.hostReset.acc = 0x00#8 := rfl
@[simp] theorem State.hostReset_inputs : s.hostReset.inputs = s.inputs := rfl
@[simp] theorem State.hostReset_resp : s.hostReset.resp = none := rfl
@[simp] theorem State.hostReset_index : s.hostReset.index = s.index := rfl

@[simp] theorem State.giveCommand_mem (x : CmdWord) : (s.giveCommand x).mem = s.mem := rfl
@[simp] theorem State.giveCommand_status (x : CmdWord) : (s.giveCommand x).status = s.status := rfl
@[simp] theorem State.giveCommand_acc (x : CmdWord) : (s.giveCommand x).acc = s.acc := rfl
@[simp] theorem State.giveCommand_inputs (x : CmdWord) : (s.giveCommand x).inputs = .command x :: s.inputs := rfl
@[simp] theorem State.giveCommand_resp (x : CmdWord) : (s.giveCommand x).resp = s.resp := rfl
@[simp] theorem State.giveCommand_index (x : CmdWord) : (s.giveCommand x).index = s.index := rfl

/-! Derived views: FAULT, CAUSE, a byte's content and a byte's reading depend on their own fields only. -/

theorem State.faulted_of_status {s t : State} (h : t.status = s.status) : t.faulted = s.faulted := by
  simp [State.faulted, h]

@[simp] theorem State.writeByte_faulted : (s.writeByte a v).faulted = s.faulted := rfl
@[simp] theorem State.writePair_faulted : (s.writePair a v w).faulted = s.faulted := rfl
@[simp] theorem State.setAcc_faulted : (s.setAcc v).faulted = s.faulted := rfl
@[simp] theorem State.respond_faulted : (s.respond v).faulted = s.faulted := rfl
@[simp] theorem State.quiet_faulted : s.quiet.faulted = s.faulted := rfl
@[simp] theorem State.advance_faulted : s.advance.faulted = s.faulted := rfl
@[simp] theorem State.giveCommand_faulted (x : CmdWord) : (s.giveCommand x).faulted = s.faulted := rfl
@[simp] theorem State.hostReset_faulted : s.hostReset.faulted = false := by
  simp [State.faulted]
@[simp] theorem State.raise_faulted : (s.raise c).faulted = true := by
  cases c <;> simp only [State.faulted, State.raise_status] <;> decide
@[simp] theorem State.raise_cause : (s.raise c).cause = causeCode c := by
  cases c <;> simp only [State.cause, State.raise_status] <;> decide

@[simp] theorem State.writeByte_cause : (s.writeByte a v).cause = s.cause := rfl
@[simp] theorem State.writePair_cause : (s.writePair a v w).cause = s.cause := rfl
@[simp] theorem State.setAcc_cause : (s.setAcc v).cause = s.cause := rfl
@[simp] theorem State.respond_cause : (s.respond v).cause = s.cause := rfl
@[simp] theorem State.quiet_cause : s.quiet.cause = s.cause := rfl
@[simp] theorem State.advance_cause : s.advance.cause = s.cause := rfl
@[simp] theorem State.giveCommand_cause (x : CmdWord) : (s.giveCommand x).cause = s.cause := rfl

@[simp] theorem State.setAcc_byteAt : (s.setAcc v).byteAt b = s.byteAt b := rfl
@[simp] theorem State.respond_byteAt : (s.respond v).byteAt b = s.byteAt b := rfl
@[simp] theorem State.quiet_byteAt : s.quiet.byteAt b = s.byteAt b := rfl
@[simp] theorem State.advance_byteAt : s.advance.byteAt b = s.byteAt b := rfl
@[simp] theorem State.raise_byteAt : (s.raise c).byteAt b = s.byteAt b := rfl
@[simp] theorem State.giveCommand_byteAt (x : CmdWord) : (s.giveCommand x).byteAt b = s.byteAt b := rfl
@[simp] theorem State.hostReset_byteAt : s.hostReset.byteAt b = none := rfl

@[simp] theorem State.quiet_readByte : s.quiet.readByte b = s.readByte b := rfl
@[simp] theorem State.quiet_spanSum : s.quiet.spanSum = s.spanSum := rfl
@[simp] theorem State.quiet_readCsr (n : BitVec 8) : s.quiet.readCsr n = s.readCsr n := rfl

end Fields

end Sys2Proof.Machine
end

