-- ==== Sys2Proof/Laws/Memory.lean ====
section
/-! SUPPORT. The record as memory: a read after a write, every operation keeps the canonical form, and what each shared operation on the record
leaves at every address (20_memory.md R48). -/

namespace Sys2Proof.Machine

theorem Memory.read_write_same (m : Memory) (a : Nat) (v : Byte) : (m.write a v).read a = some v := by
  induction m with
  | nil => simp [Memory.write, Memory.read]
  | cons p rest ih =>
    obtain ⟨k, u⟩ := p
    simp only [Memory.write]
    split
    · simp [Memory.read]
    · split
      · simp [Memory.read]
      · rename_i h1 h2
        simp [Memory.read, ih, Ne.symm h2]

theorem Memory.read_write_other (m : Memory) {a b : Nat} (v : Byte) (h : b ≠ a) :
    (m.write a v).read b = m.read b := by
  induction m with
  | nil => simp [Memory.write, Memory.read, Ne.symm h]
  | cons p rest ih =>
    obtain ⟨k, u⟩ := p
    simp only [Memory.write]
    split
    · simp [Memory.read, Ne.symm h]
    · split
      · rename_i h1 h2
        simp [Memory.read, ← h2, Ne.symm h]
      · simp [Memory.read, ih]

/-- A write puts the address among the listed ones and no other. -/
theorem Memory.mem_write_addr {m : Memory} {a : Nat} {v : Byte} {p : Host.Cell} (h : p ∈ m.write a v) :
    p.1 = a ∨ p ∈ m := by
  induction m with
  | nil => simp [Memory.write] at h; simp [h]
  | cons q rest ih =>
    obtain ⟨k, u⟩ := q
    simp only [Memory.write] at h
    split at h
    · rcases List.mem_cons.1 h with rfl | h
      · exact .inl rfl
      · exact .inr h
    · split at h
      · rcases List.mem_cons.1 h with rfl | h
        · exact .inl rfl
        · exact .inr (List.mem_cons_of_mem _ h)
      · rcases List.mem_cons.1 h with rfl | h
        · exact .inr List.mem_cons_self
        · exact (ih h).imp id (List.mem_cons_of_mem _)

theorem Memory.wf_nil : Memory.wf [] := ⟨List.Pairwise.nil, by simp⟩

theorem Memory.wf_write {m : Memory} (hm : m.wf) {a : Nat} (ha : a < 128) (v : Byte) : (m.write a v).wf := by
  refine ⟨?_, fun p hp => (Memory.mem_write_addr hp).elim (· ▸ ha) (hm.2 p)⟩
  obtain ⟨hs, -⟩ := hm
  induction m with
  | nil => simp [Memory.write]
  | cons q rest ih =>
    obtain ⟨k, u⟩ := q
    obtain ⟨hk, hrest⟩ := List.pairwise_cons.1 hs
    simp only [Memory.write]
    split
    · rename_i hlt
      refine List.pairwise_cons.2 ⟨fun p hp => ?_, hs⟩
      rcases List.mem_cons.1 hp with rfl | hp
      · exact hlt
      · exact hlt.trans (hk p hp)
    · split
      · rename_i heq
        exact List.pairwise_cons.2 ⟨fun p hp => heq ▸ hk p hp, hrest⟩
      · rename_i h1 h2
        refine List.pairwise_cons.2 ⟨fun p hp => ?_, ih hrest⟩
        rcases Memory.mem_write_addr hp with h | h
        · exact h ▸ (by omega)
        · exact hk p h

theorem State.reset_mem_wf : State.reset.mem.wf := Memory.wf_nil

theorem State.writeByte_wf {s : State} (h : s.mem.wf) (a : Addr) (v : Byte) : (s.writeByte a v).mem.wf :=
  Memory.wf_write h a.isLt v

theorem State.writePair_wf {s : State} (h : s.mem.wf) (a : Addr) (v w : Byte) : (s.writePair a v w).mem.wf :=
  State.writeByte_wf (State.writeByte_wf h a v) _ w

theorem State.writeByte_byteAt (s : State) (a b : Addr) (v : Byte) :
    (s.writeByte a v).byteAt b = if b = a then some v else s.byteAt b := by
  unfold State.byteAt
  split
  · next h => rw [h]; exact Memory.read_write_same _ _ _
  · next h => exact Memory.read_write_other _ _ (fun e => h (BitVec.eq_of_toNat_eq e))

theorem State.writePair_byteAt (s : State) (a b : Addr) (v w : Byte) :
    (s.writePair a v w).byteAt b = if b = nextAddr a then some w else if b = a then some v else s.byteAt b := by
  simp [State.writePair, State.writeByte_byteAt]

/-- Writing one value at each address of a list, one after the other: what every address then holds, and that nothing else changes. -/
theorem State.foldl_writeByte (l : List Addr) (v : Byte) (s : State) :
    (∀ b, (l.foldl (fun t a => t.writeByte a v) s).byteAt b = if b ∈ l then some v else s.byteAt b) ∧
    (l.foldl (fun t a => t.writeByte a v) s) =
      { s with mem := (l.foldl (fun t a => t.writeByte a v) s).mem } ∧
    (s.mem.wf → (l.foldl (fun t a => t.writeByte a v) s).mem.wf) := by
  induction l generalizing s with
  | nil => simp
  | cons a rest ih =>
    obtain ⟨h1, h2, h3⟩ := ih (s.writeByte a v)
    refine ⟨fun b => ?_, ?_, fun h => h3 (State.writeByte_wf h a v)⟩
    · rw [List.foldl_cons, h1, State.writeByte_byteAt]
      by_cases hb : b ∈ rest <;> by_cases ha : b = a <;> simp [hb, ha]
    · rw [List.foldl_cons, h2]
      rfl

theorem mem_recAddrs (a : Addr) : a ∈ recAddrs := by
  refine List.mem_map.2 ⟨a.toNat, List.mem_range.2 a.isLt, ?_⟩
  simp

theorem State.clearRecord_byteAt (s : State) (b : Addr) : s.clearRecord.byteAt b = some 0x00#8 := by
  rw [State.clearRecord, (State.foldl_writeByte _ _ _).1, if_pos (mem_recAddrs b)]

/-- `clr` changes nothing but the record. -/
theorem State.clearRecord_eq (s : State) : s.clearRecord = { s with mem := s.clearRecord.mem } :=
  (State.foldl_writeByte _ _ _).2.1

theorem State.clearRecord_wf {s : State} (h : s.mem.wf) : s.clearRecord.mem.wf := (State.foldl_writeByte _ _ _).2.2 h

@[simp] theorem State.clearRecord_status (s : State) : s.clearRecord.status = s.status := by rw [s.clearRecord_eq]
@[simp] theorem State.clearRecord_acc (s : State) : s.clearRecord.acc = s.acc := by rw [s.clearRecord_eq]
@[simp] theorem State.clearRecord_inputs (s : State) : s.clearRecord.inputs = s.inputs := by rw [s.clearRecord_eq]
@[simp] theorem State.clearRecord_resp (s : State) : s.clearRecord.resp = s.resp := by rw [s.clearRecord_eq]
@[simp] theorem State.clearRecord_index (s : State) : s.clearRecord.index = s.index := by rw [s.clearRecord_eq]
@[simp] theorem State.clearRecord_faulted (s : State) : s.clearRecord.faulted = s.faulted :=
  State.faulted_of_status s.clearRecord_status

/-- A byte that has been written reads as its content, whatever the index. -/
theorem State.readByte_of_byteAt {s : State} {a : Addr} {v : Byte} (h : s.byteAt a = some v) : s.readByte a = v := by
  simp [State.readByte, h]

/-- Two states in which a written byte has the same content read it alike. -/
theorem State.readByte_congr {s t : State} {a : Addr} (hw : s.byteAt a ≠ none) (h : t.byteAt a = s.byteAt a) :
    t.readByte a = s.readByte a := by
  obtain ⟨v, hv⟩ := Option.ne_none_iff_exists'.1 hw
  rw [State.readByte_of_byteAt hv, State.readByte_of_byteAt (h.trans hv)]

end Sys2Proof.Machine
end

