-- ==== Sys2Proof/Laws/Operands.lean ====
section
/-! SUPPORT. What the packing computations give as mathematical integers: none relies on truncation (00_scope.md R11, 41_standard_timing.md R92). -/

namespace Sys2Proof.Machine

theorem slotBase_toNat (slot : BitVec 3) : (slotBase slot).toNat = 38 + 2 * slot.toNat := by
  have := slot.isLt
  simp only [slotBase, stBase, BitVec.toNat_ofNat]
  omega

theorem nextAddr_slotBase_toNat (slot : BitVec 3) : (nextAddr (slotBase slot)).toNat = 39 + 2 * slot.toNat := by
  have := slot.isLt
  have h : (1#7).toNat = 1 := rfl
  simp only [nextAddr, BitVec.toNat_add, slotBase_toNat, h]
  omega

theorem nextAddr_slotBase_ne (slot : BitVec 3) : nextAddr (slotBase slot) ≠ slotBase slot := by
  intro h
  have := congrArg BitVec.toNat h
  rw [nextAddr_slotBase_toNat, slotBase_toNat] at this
  omega

theorem hsizeLegal_iff (hsize : BitVec 12) : hsizeLegal hsize = true ↔ 256 ≤ hsize.toNat ∧ hsize.toNat ≤ 2288 := by
  simp only [hsizeLegal, Bool.and_eq_true, decide_eq_true_eq]
  rfl

theorem vfreqLegal_iff (vfreq : BitVec 8) : vfreqLegal vfreq = true ↔ 60 ≤ vfreq.toNat ∧ vfreq.toNat ≤ 123 := by
  simp only [vfreqLegal, Bool.and_eq_true, decide_eq_true_eq]
  rfl

theorem gammaLegal_iff (g : BitVec 16) :
    gammaLegal g = true ↔ 100 ≤ (g.toNat + 5) / 10 ∧ (g.toNat + 5) / 10 ≤ 354 := by
  simp only [gammaLegal, Bool.and_eq_true, decide_eq_true_eq]
  rfl

/-- The test on the rounded hundredths as a range of `g` (42_vendor_gamma.md R101). -/
theorem gammaLegal_iff_thousandths (g : BitVec 16) : gammaLegal g = true ↔ 995 ≤ g.toNat ∧ g.toNat ≤ 3544 := by
  rw [gammaLegal_iff]
  omega

theorem stByte0_toNat {hsize : BitVec 12} (h : hsizeLegal hsize = true) : (stByte0 hsize).toNat = hsize.toNat / 8 - 31 := by
  rw [hsizeLegal_iff] at h
  simp only [stByte0, BitVec.toNat_ofNat]
  omega

/-- The offset fits 6 bits, so the or is a sum. -/
theorem stByte1_toNat {vfreq : BitVec 8} (h : vfreqLegal vfreq = true) (aspect : BitVec 2) :
    (stByte1 vfreq aspect).toNat = 64 * aspect.toNat + (vfreq.toNat - 60) := by
  rw [vfreqLegal_iff] at h
  have ha := aspect.isLt
  have hor : aspect.toNat <<< 6 ||| (vfreq.toNat - 60) = aspect.toNat * 2 ^ 6 + (vfreq.toNat - 60) := by
    rw [← Nat.shiftLeft_eq, Nat.shiftLeft_add_eq_or_of_lt (by omega)]
  simp only [stByte1, vfreqMin, hor, BitVec.toNat_ofNat]
  omega

/-- The three letters fill bits 14 to 0 and bit 15 is 0 (42_vendor_gamma.md R100). -/
theorem mfgValue_toNat (l1 l2 l3 : BitVec 5) :
    (mfgValue l1 l2 l3).toNat = 1024 * l1.toNat + 32 * l2.toNat + l3.toNat := by
  have h1 := l1.isLt
  have h2 := l2.isLt
  have h3 := l3.isLt
  have e1 : l1.toNat <<< 10 ||| l2.toNat <<< 5 = (l1.toNat * 2 ^ 5 + l2.toNat) <<< 5 := by
    rw [← Nat.shiftLeft_eq, Nat.shiftLeft_add_eq_or_of_lt h2, Nat.shiftLeft_or_distrib, ← Nat.shiftLeft_add]
  have e2 : (l1.toNat * 2 ^ 5 + l2.toNat) <<< 5 ||| l3.toNat = (l1.toNat * 2 ^ 5 + l2.toNat) * 2 ^ 5 + l3.toNat := by
    rw [← Nat.shiftLeft_add_eq_or_of_lt h3, Nat.shiftLeft_eq]
  simp only [mfgValue, e1, e2, BitVec.toNat_ofNat]
  omega

theorem hiByte_toNat (v : BitVec 16) : (hiByte v).toNat = v.toNat / 256 := by
  have := v.isLt
  simp only [hiByte, BitVec.extractLsb'_toNat, Nat.shiftRight_eq_div_pow]
  omega

theorem loByte_toNat (v : BitVec 16) : (loByte v).toNat = v.toNat % 256 := by
  simp [loByte, BitVec.extractLsb'_toNat]

theorem gammaByte_toNat {g : BitVec 16} (h : gammaLegal g = true) : (gammaByte g).toNat = (g.toNat + 5) / 10 - 100 := by
  rw [gammaLegal_iff] at h
  simp only [gammaByte, gammaHundredths, gammaRMin, BitVec.toNat_ofNat]
  omega

theorem checksumByte_toNat (s : Byte) : (checksumByte s).toNat = (256 - s.toNat) % 256 := by
  simp [checksumByte]

/-- A sum and its checksum byte add to 0 modulo 256 (43_checksum.md R111). -/
theorem checksumByte_cancels (s : Byte) : (s.toNat + (checksumByte s).toNat) % 256 = 0 := by
  have := s.isLt
  rw [checksumByte_toNat]
  omega

theorem faultStatus_legal (c : Cause) : statusLegal (faultStatus c) = true := by cases c <;> decide

/-- The hardwired bits do not show on a legal STATUS (10_state.md R21). -/
theorem readStatus_of_legal {w : Byte} (h : statusLegal w = true) : readStatus w = w := by
  simp only [statusLegal, Bool.or_eq_true, beq_iff_eq] at h
  rcases h with (((h | h) | h) | h) | h <;> subst h <;> decide

end Sys2Proof.Machine
end

