-- ==== Sys2Proof/Laws/Ops.lean ====
section
/-! SUPPORT. The frame every command runs in, the checksum's accumulation, and each meaning in its two cases: performed, or ignored in the fault
state. The provers cite these instead of unfolding the operations. -/

namespace Sys2Proof.Machine

/-- 60_exceptions.md R146: in the fault state a command changes nothing and does not respond. -/
theorem State.perform_faulted {s : State} (h : s.faulted = true) (body : State → State) :
    s.perform body = s.quiet.advance := by
  simp [State.perform, h]

theorem State.perform_unfaulted {s : State} (h : s.faulted = false) (body : State → State) :
    s.perform body = (body s.quiet).advance := by
  simp [State.perform, h]

/-- An ignored command leaves every field but the response port and the index. -/
theorem State.quiet_advance (s : State) : s.quiet.advance = { s with resp := none, index := s.index + 1 } := rfl

theorem step_wait {s : State} (h : s.inputs = []) : step s = .next s.wait := by
  simp [step, State.takeInput, h]

theorem step_reset {s : State} {rest : List Input} (h : s.inputs = .reset :: rest) :
    step s = .next ({ s with inputs := rest } : State).hostReset := by
  simp [step, State.takeInput, h]

theorem step_command {s : State} {w : CmdWord} {rest : List Input} (h : s.inputs = .command w :: rest) :
    step s = match decode w with
      | .ok i => exec i { s with inputs := rest }
      | .error _ => .next ({ s with inputs := rest } : State).illegalCommand := by
  cases hd : decode w <;> simp [step, State.takeInput, h, hd]

/-- The effect of a command on an unfaulted block, response port cleared: the body that `exec` performs. -/
def bodyOf : Instr → State → State
  | .clr, t => t.clearRecord
  | .stb addr val, t => t.writeByte addr val
  | .ldb addr, t => t.respond (t.readByte addr)
  | .stSet slot hsize vfreq aspect, t =>
    if !hsizeLegal hsize then t.raise .hsizeRange
    else if !vfreqLegal vfreq then t.raise .vfreqRange
    else t.writePair (slotBase slot) (stByte0 hsize) (stByte1 vfreq aspect)
  | .stUnset slot, t => t.writePair (slotBase slot) stSentinel stSentinel
  | .mfg l1 l2 l3, t => t.writePair mfgAddr (hiByte (mfgValue l1 l2 l3)) (loByte (mfgValue l1 l2 l3))
  | .gamma g, t => if !gammaLegal g then t.raise .gammaRange else t.writeByte gammaAddr (gammaByte g)
  | .csum, t => (t.setAcc t.spanSum).writeByte csumAddr (checksumByte t.spanSum)
  | .rdsr csr, t => if csrAssigned csr then t.respond (t.readCsr csr) else t.raise .illegalCmd

/-- `exec` on a block that is not in the fault state. -/
theorem exec_unfaulted {s : State} (h : s.faulted = false) (i : Instr) : exec i s = .next (bodyOf i s.quiet).advance := by
  cases i <;> simp only [exec, execClr, execStb, execLdb, execStSet, execStUnset, execMfg, execGamma, execCsum,
    State.perform_unfaulted h, bodyOf]
  rename_i csr
  unfold execRdsr
  split <;> simp [State.performAlways, State.illegalCommand, State.perform_unfaulted h, *]

/-- `exec` in the fault state: only a well-formed `rdsr` is performed (60_exceptions.md R146). -/
theorem exec_faulted {s : State} (h : s.faulted = true) (i : Instr) :
    exec i s = match i with
      | .rdsr csr => if csrAssigned csr then .next (s.quiet.respond (s.readCsr csr)).advance else .next s.quiet.advance
      | _ => .next s.quiet.advance := by
  cases i <;> simp only [exec, execClr, execStb, execLdb, execStSet, execStUnset, execMfg, execGamma, execCsum,
    State.perform_faulted h]
  unfold execRdsr
  split <;> simp [State.performAlways, State.illegalCommand, State.perform_faulted h]

theorem illegalCommand_unfaulted {s : State} (h : s.faulted = false) :
    s.illegalCommand = (s.quiet.raise .illegalCmd).advance := State.perform_unfaulted h _

theorem illegalCommand_faulted {s : State} (h : s.faulted = true) : s.illegalCommand = s.quiet.advance :=
  State.perform_faulted h _

/-- Folding 8-bit additions is the mathematical sum reduced once (43_checksum.md R111). -/
theorem foldl_add_toNat (f : Nat → Byte) (l : List Nat) (x : Byte) :
    (l.foldl (fun sum k => sum + f k) x).toNat = (x.toNat + (l.map fun k => (f k).toNat).sum) % 256 := by
  induction l generalizing x with
  | nil =>
    have := x.isLt
    simp only [List.foldl_nil, List.map_nil, List.sum_nil]
    omega
  | cons k rest ih =>
    rw [List.foldl_cons, ih, BitVec.toNat_add, List.map_cons, List.sum_cons]
    omega

/-- The accumulator's sum is the mathematical sum of bytes 0 to 126 modulo 256 (43_checksum.md R111). -/
theorem State.spanSum_toNat (s : State) : s.spanSum.toNat = s.byteSum 127 % 256 := by
  rw [State.spanSum, spanAddrs, List.foldl_map, foldl_add_toNat (fun k => s.readByte (BitVec.ofNat 7 k))]
  simp [State.byteSum, csumSpan]

theorem State.byteSum_succ (s : State) (n : Nat) :
    s.byteSum (n + 1) = s.byteSum n + (s.readByte (BitVec.ofNat 7 n)).toNat := by
  simp [State.byteSum, List.range_succ]

/-- A sum of bytes depends on what they read as. -/
theorem State.byteSum_congr {s t : State} {n : Nat} (hn : n ≤ 128)
    (h : ∀ a : Addr, a.toNat < n → t.readByte a = s.readByte a) : t.byteSum n = s.byteSum n := by
  induction n with
  | zero => rfl
  | succ n ih =>
    have e : (BitVec.ofNat 7 n).toNat = n := by
      simp only [BitVec.toNat_ofNat]
      omega
    rw [State.byteSum_succ, State.byteSum_succ, ih (by omega) fun a ha => h a (by omega), h _ (by omega)]

/-- The accumulator's sum depends on what bytes 0 to 126 read as and on nothing else. -/
theorem State.spanSum_congr {s t : State} (h : ∀ a : Addr, a.toNat < 127 → t.readByte a = s.readByte a) :
    t.spanSum = s.spanSum := by
  have hb : ∀ a ∈ spanAddrs, t.readByte a = s.readByte a := by
    intro a ha
    obtain ⟨k, hk, rfl⟩ := List.mem_map.1 ha
    refine h _ ?_
    have := List.mem_range.1 hk
    simp only [csumSpan] at this
    simp only [BitVec.toNat_ofNat]
    omega
  unfold State.spanSum
  generalize spanAddrs = l at hb
  generalize (0x00#8 : Byte) = x
  induction l generalizing x with
  | nil => rfl
  | cons a rest ih =>
    rw [List.foldl_cons, List.foldl_cons, hb a List.mem_cons_self]
    exact ih (fun b hb' => hb b (List.mem_cons_of_mem _ hb')) _

/-- A command that meets a fault condition does nothing but raise it (60_exceptions.md R141). -/
theorem bodyOf_of_fault {i : Instr} {c : Cause} (h : faultOf i = some c) (t : State) : bodyOf i t = t.raise c := by
  cases i <;> simp only [faultOf] at h <;> try cases h
  · rename_i slot hsize vfreq aspect
    have a := hsizeLegal_iff hsize
    have b := vfreqLegal_iff vfreq
    simp only [bodyOf]
    split at h
    · cases h
      have : hsizeLegal hsize = false := by
        by_contra hc
        have := a.1 (by simpa using hc)
        omega
      simp [this]
    · split at h
      · cases h
        have : vfreqLegal vfreq = false := by
          by_contra hc
          have := b.1 (by simpa using hc)
          omega
        simp [a.2 (by omega), this]
      · cases h
  · rename_i g
    have a := gammaLegal_iff g
    split at h
    · cases h
      have : gammaLegal g = false := by
        by_contra hc
        have := a.1 (by simpa using hc)
        omega
      simp [bodyOf, this]
    · cases h
  · split at h
    · cases h
    · cases h
      simp only [bodyOf, csrAssigned]
      simp
      omega

/-- `st.set` with legal operands is its two byte writes (41_standard_timing.md R90). -/
theorem bodyOf_stSet {hsize : BitVec 12} {vfreq : BitVec 8} (h : hsizeLegal hsize = true) (k : vfreqLegal vfreq = true)
    (slot : BitVec 3) (aspect : BitVec 2) (t : State) :
    bodyOf (.stSet slot hsize vfreq aspect) t = t.writePair (slotBase slot) (stByte0 hsize) (stByte1 vfreq aspect) := by
  simp [bodyOf, h, k]

/-- `gamma` with a legal operand is its one byte write (42_vendor_gamma.md R101). -/
theorem bodyOf_gamma {g : BitVec 16} (h : gammaLegal g = true) (t : State) :
    bodyOf (.gamma g) t = t.writeByte gammaAddr (gammaByte g) := by
  simp [bodyOf, h]

/-- No command touches the index or the host's inputs; the frame does. -/
theorem bodyOf_index_inputs (i : Instr) (t : State) : (bodyOf i t).index = t.index ∧ (bodyOf i t).inputs = t.inputs := by
  cases i <;> simp [bodyOf]
  · split <;> (try split) <;> simp
  · split <;> simp
  · split <;> simp

/-- Everything a step that answers a next state can have done. -/
theorem step_cases {s t : State} (h : step s = .next t) :
    (s.inputs = [] ∧ t = s.wait) ∨
    (∃ rest, s.inputs = .reset :: rest ∧ t = ({ s with inputs := rest } : State).hostReset) ∨
    (∃ w rest r, s.inputs = .command w :: rest ∧ decode w = .error r ∧ t = ({ s with inputs := rest } : State).illegalCommand) ∨
    (∃ w rest i, s.inputs = .command w :: rest ∧ decode w = .ok i ∧ exec i { s with inputs := rest } = .next t) := by
  rcases hi : s.inputs with _ | ⟨e, rest⟩
  · rw [step_wait hi] at h
    exact .inl ⟨rfl, (Host.Outcome.next.inj h).symm⟩
  · cases e with
    | reset =>
      rw [step_reset hi] at h
      exact .inr (.inl ⟨rest, rfl, (Host.Outcome.next.inj h).symm⟩)
    | command w =>
      rw [step_command hi] at h
      cases hd : decode w with
      | error r =>
        rw [hd] at h
        exact .inr (.inr (.inl ⟨w, rest, r, rfl, hd, (Host.Outcome.next.inj h).symm⟩))
      | ok i =>
        rw [hd] at h
        exact .inr (.inr (.inr ⟨w, rest, i, rfl, hd, h⟩))

end Sys2Proof.Machine
end

