-- ==== Sys2Proof/Laws/PerInstr.lean ====
section
/-! SUPPORT. The family EncodesInRow of statements about every instruction as syntax: a well-formed command's word is accepted by the command's own
row of the opcode table (30_encoding.md R62 to R69). -/

namespace Sys2Proof.Laws

/-- The row of the opcode table each command stands in (30_encoding.md R61, R69). -/
def rowOf : Instr → OpRow
  | .clr => rowClr
  | .stb _ _ => rowStb
  | .ldb _ => rowLdb
  | .stSet _ _ _ _ => rowStSet
  | .stUnset _ => rowStUnset
  | .mfg _ _ _ => rowMfg
  | .gamma _ => rowGamma
  | .csum => rowCsum
  | .rdsr _ => rowRdsr

/-- A well-formed command's word is one its row accepts. -/
def EncodesInRow.Statement (i : Instr) : Prop := i.wf = true → (rowOf i).accepts (encode i) = true

theorem EncodesInRow.clr : EncodesInRow.Statement .clr := by
  intro _; decide

theorem EncodesInRow.stb (addr : BitVec 7) (val : BitVec 8) : EncodesInRow.Statement (.stb addr val) := by
  intro _
  simp only [rowOf, encode, OpRow.accepts_iff, rowStb]
  ext k hk
  interval_cases k <;> simp [place]

theorem EncodesInRow.ldb (addr : BitVec 7) : EncodesInRow.Statement (.ldb addr) := by
  intro _
  simp only [rowOf, encode, OpRow.accepts_iff, rowLdb]
  ext k hk
  interval_cases k <;> simp [place]

theorem EncodesInRow.stSet (slot : BitVec 3) (hsize : BitVec 12) (vfreq : BitVec 8) (aspect : BitVec 2) :
    EncodesInRow.Statement (.stSet slot hsize vfreq aspect) := by
  intro _
  simp only [rowOf, encode, OpRow.accepts_iff, rowStSet]
  ext k hk
  interval_cases k <;> simp [place]

theorem EncodesInRow.stUnset (slot : BitVec 3) : EncodesInRow.Statement (.stUnset slot) := by
  intro _
  simp only [rowOf, encode, OpRow.accepts_iff, rowStUnset]
  ext k hk
  interval_cases k <;> simp [place]

theorem EncodesInRow.mfg (l1 l2 l3 : BitVec 5) : EncodesInRow.Statement (.mfg l1 l2 l3) := by
  intro _
  simp only [rowOf, encode, OpRow.accepts_iff, rowMfg]
  ext k hk
  interval_cases k <;> simp [place]

theorem EncodesInRow.gamma (g : BitVec 16) : EncodesInRow.Statement (.gamma g) := by
  intro _
  simp only [rowOf, encode, OpRow.accepts_iff, rowGamma]
  ext k hk
  interval_cases k <;> simp [place]

theorem EncodesInRow.csum : EncodesInRow.Statement .csum := by
  intro _; decide

theorem EncodesInRow.rdsr (csr : BitVec 8) : EncodesInRow.Statement (.rdsr csr) := by
  intro h
  have hc : csr.toNat < 2 := by simpa [Instr.wf, csrLegal] using h
  have : csr = 0#8 ∨ csr = 1#8 := by
    rcases Nat.lt_or_ge csr.toNat 1 with h0 | h1
    · exact .inl (BitVec.eq_of_toNat_eq (by simpa using h0))
    · exact .inr (BitVec.eq_of_toNat_eq (by simp; omega))
  rcases this with rfl | rfl <;> decide

end Sys2Proof.Laws
end

