-- ==== Sys2Proof/Laws/Runs.lean ====
section
/-! SUPPORT. What one word of a run can do, and a run over words put one after the other. -/

namespace Sys2Proof.Machine

/-- One word: its command performed, or the reserved word's effect, and the response port afterwards. -/
theorem performWord_eq (s : State) (w : CmdWord) :
    (∃ i, decode w = .ok i ∧ ∃ t, exec i s = .next t ∧ performWord s w = (t, t.resp)) ∨
    (∃ r, decode w = .error r ∧ performWord s w = (s.illegalCommand, s.illegalCommand.resp)) := by
  have h := step_command (s := s.giveCommand w) (w := w) (rest := s.inputs) rfl
  have e : ({ s.giveCommand w with inputs := s.inputs } : State) = s := rfl
  rw [e] at h
  cases hd : decode w with
  | error r => exact .inr ⟨r, rfl, by simp [performWord, h, hd]⟩
  | ok i =>
    refine .inl ⟨i, rfl, ?_⟩
    cases hf : s.faulted with
    | false => exact ⟨_, exec_unfaulted hf i, by simp [performWord, h, hd, exec_unfaulted hf i]⟩
    | true =>
      cases he : exec i s with
      | next t => exact ⟨t, rfl, by simp [performWord, h, hd, he]⟩
      | fault r => cases r
      | refused r =>
        rw [exec_faulted hf] at he
        split at he
        · split at he <;> cases he
        · cases he

/-- A run over `a` and then `b`. -/
theorem runWords_append (s : State) (a b : List CmdWord) :
    runWords s (a ++ b) = ((runWords (runWords s a).1 b).1, (runWords s a).2 ++ (runWords (runWords s a).1 b).2) := by
  induction a generalizing s with
  | nil => rfl
  | cons w rest ih => simp [runWords, ih]

theorem runWords_cons (s : State) (w : CmdWord) (ws : List CmdWord) :
    runWords s (w :: ws) = ((runWords (performWord s w).1 ws).1, (performWord s w).2.toList ++ (runWords (performWord s w).1 ws).2) := rfl

/-- A word out of the fault state. -/
theorem performWord_unfaulted {s : State} (hf : s.faulted = false) {w : CmdWord} {i : Instr} (hd : decode w = .ok i) :
    performWord s w = ((bodyOf i s.quiet).advance, (bodyOf i s.quiet).resp) := by
  obtain ⟨j, hj, t, ht, he⟩ | ⟨r, hr, _⟩ := performWord_eq s w
  · rw [hd] at hj
    cases hj
    rw [exec_unfaulted hf] at ht
    cases ht
    exact he
  · rw [hd] at hr
    cases hr

/-- No word touches the inputs the host has still to give. -/
theorem performWord_inputs (s : State) (w : CmdWord) : (performWord s w).1.inputs = s.inputs := by
  obtain ⟨i, -, t, ht, he⟩ | ⟨r, -, he⟩ := performWord_eq s w
  · rw [he]
    cases hf : s.faulted with
    | false =>
      rw [exec_unfaulted hf] at ht
      cases ht
      exact (bodyOf_index_inputs i s.quiet).2
    | true =>
      rw [exec_faulted hf] at ht
      split at ht
      · split at ht <;> cases ht <;> rfl
      · cases ht
        rfl
  · rw [he]
    cases hf : s.faulted with
    | false => rw [illegalCommand_unfaulted hf]; rfl
    | true => rw [illegalCommand_faulted hf]; rfl

theorem runWords_inputs (s : State) (ws : List CmdWord) : (runWords s ws).1.inputs = s.inputs := by
  induction ws generalizing s with
  | nil => rfl
  | cons w rest ih => rw [runWords_cons, ih, performWord_inputs]

/-- No word leaves the fault state (60_exceptions.md R146). -/
theorem performWord_faulted {s : State} (hf : s.faulted = true) (w : CmdWord) : (performWord s w).1.faulted = true := by
  obtain ⟨i, -, t, ht, he⟩ | ⟨r, -, he⟩ := performWord_eq s w
  · rw [he]
    rw [exec_faulted hf] at ht
    split at ht
    · split at ht <;> cases ht <;> exact hf
    · cases ht
      exact hf
  · rw [he, illegalCommand_faulted hf]
    exact hf

theorem runWords_faulted {s : State} (hf : s.faulted = true) (ws : List CmdWord) : (runWords s ws).1.faulted = true := by
  induction ws generalizing s with
  | nil => exact hf
  | cons w rest ih => exact ih (performWord_faulted hf w)

/-- A word that leaves FAULT 0 has its response byte exactly when it asks for one. -/
theorem performWord_responds {s : State} {w : CmdWord} (h : (performWord s w).1.faulted = false) :
    (performWord s w).2.toList.length = if asksForByte w then 1 else 0 := by
  have hf : s.faulted = false := by
    by_contra hc
    rw [performWord_faulted (by simpa using hc)] at h
    cases h
  cases hd : decode w with
  | error r =>
    obtain ⟨i, hi, _⟩ | ⟨_, _, he⟩ := performWord_eq s w
    · rw [hd] at hi
      cases hi
    · rw [he, illegalCommand_unfaulted hf] at h
      exact absurd h (by simp)
  | ok i =>
    rw [performWord_unfaulted hf hd] at h ⊢
    cases i <;> simp only [bodyOf, asksForByte, hd] at h ⊢ <;> try rfl
    · simp only [Bool.false_eq_true, if_false]
      repeat' split
      all_goals rfl
    · simp only [Bool.false_eq_true, if_false]
      split <;> rfl
    · split at h
      · simp [*]
      · exact absurd h (by simp)

theorem runWords_responds {s : State} {ws : List CmdWord} (h : (runWords s ws).1.faulted = false) :
    (runWords s ws).2.length = (ws.filter asksForByte).length := by
  induction ws generalizing s with
  | nil => rfl
  | cons w rest ih =>
    rw [runWords_cons] at h ⊢
    have hw : (performWord s w).1.faulted = false := by
      by_contra hc
      rw [runWords_faulted (by simpa using hc)] at h
      cases h
    have := performWord_responds hw
    rw [List.length_append, ih h, this, List.filter_cons]
    split
    · simp
      omega
    · simp

end Sys2Proof.Machine
end

