-- ==== Sys2Proof/Tests/Slice0.lean ====
section
/-! SUPPORT. Tests on words, examples and vectors of spec/95_test_vectors.md (the vector's id is in each comment), the smoke test of WellFormed, and a
witness for the hypotheses of every statement that has some. -/

open Sys2Proof Sys2Proof.Machine

namespace Sys2Proof.Tests

/-- The next state, if there is one. -/
def nextOf : Host.Outcome State Fault Refusal → Option State
  | .next t => some t
  | .fault _ => none
  | .refused _ => none

/-- After reset, with the record zeroed as `clr` leaves it (the start state of 95_test_vectors.md Part 2). -/
def zeroed : State := State.reset.clearRecord

/-- In the fault state with cause 2, bytes 8 and 9 holding 24 F4 (program P3). -/
def faultedP3 : State := { State.reset with mem := [(8, 0x24#8), (9, 0xF4#8)], status := 0x05#8 }

/-- Two bytes of the state an outcome leaves. -/
def bytesAfter (o : Host.Outcome State Fault Refusal) (a b : Addr) : Option (Option Byte × Option Byte) :=
  (nextOf o).map fun t => (t.byteAt a, t.byteAt b)

/-- STATUS of the state an outcome leaves, and what a byte holds there. -/
def statusAfter (o : Host.Outcome State Fault Refusal) (a : Addr) : Option (Byte × Option Byte) :=
  (nextOf o).map fun t => (t.status, t.byteAt a)

/-- The response of a step. -/
def respAfter (o : Host.Outcome State Fault Refusal) : Option (Option Byte) := (nextOf o).map State.resp

/-! WellFormed: the one check, and an ill-formed term it refuses. -/

theorem test_wf_refuses_rdsr_2 : (Instr.rdsr 2#8).wf = false := by decide
theorem test_wf_accepts_rdsr_1 : (Instr.rdsr 1#8).wf = true := by decide

/-! Decoding: words written out bit by bit from R62 to R67. -/

theorem test_decode_clr : decodeTableWord 32 0b00010000000000000000000000000000 = some .clr := by decide
theorem test_decode_stb : decodeTableWord 32 0b00100000000000000_0010010_00000001 = some (.stb 18#7 1#8) := by decide
theorem test_decode_ldb : decodeTableWord 32 0b00110000000000000_1111111_00000000 = some (.ldb 127#7) := by decide
theorem test_decode_stSet :
    decodeTableWord 32 0b0100000_111_11_01111011_100011110000 = some (.stSet 7#3 2288#12 123#8 3#2) := by decide
theorem test_decode_stUnset : decodeTableWord 32 0b0101000_101_0000000000000000000000 = some (.stUnset 5#3) := by decide
theorem test_decode_mfg : decodeTableWord 32 0b01100000000000000_01001_00111_10100 = some (.mfg 9#5 7#5 20#5) := by decide
theorem test_decode_gamma : decodeTableWord 32 0b0111000000000000_0000100010011000 = some (.gamma 2200#16) := by decide
theorem test_decode_csum : decodeTableWord 32 0b10000000000000000000000000000000 = some .csum := by decide
theorem test_decode_rdsr : decodeTableWord 32 0b1001000000000000000000000000000_1 = some (.rdsr 1#8) := by decide

/-- RA-9, RA-10, RA-11, RA-12, ST-23, ST-25, MF-9, GA-14, FS-1, FS-2. -/
theorem test_decode_reserved :
    [0x30001201, 0x90000002, 0x10000001, 0x20008000, 0x4213C400, 0x50400001, 0x60008000, 0x70010898, 0x00000000, 0xA0000000,
      0xFFFFFFFF].map (decodeTableWord 32) = List.replicate 11 none := by decide

/-- The names of the three reasons (R68). -/
theorem test_reserved_names :
    [0xA0000000#32, 0x90000002#32, 0x90000100#32].map reservedName = [.unassignedOp, .reservedCsr, .reservedBit] := by decide

/-- ST-12, MF-5, GA-13, RA-4: the encoder's words. -/
theorem test_encode :
    encode (.stSet 0#3 1680#12 75#8 0#2) = 0x4004B690#32 ∧ encode (.mfg 4#5 5#5 12#5) = 0x600010AC#32 ∧
    encode (.gamma 65535#16) = 0x7000FFFF#32 ∧ encode (.stb 18#7 1#8) = 0x20001201#32 := by decide

/-! Record access and status. -/

/-- RA-1. -/
theorem test_clr : bytesAfter (exec .clr { State.reset with mem := [(5, 7#8)] }) 5#7 127#7 = some (some 0#8, some 0#8) := by decide
/-- FS-5: ignored in the fault state. -/
theorem test_clr_ignored : statusAfter (exec .clr faultedP3) 8#7 = some (0x05#8, some 0x24#8) := by decide
/-- RA-3. -/
theorem test_stb : bytesAfter (exec (.stb 127#7 0xFF#8) State.reset) 127#7 126#7 = some (some 0xFF#8, none) := by decide
/-- RA-5. -/
theorem test_ldb : respAfter (exec (.ldb 18#7) { State.reset with mem := [(18, 1#8)] }) = some (some 0x01#8) := by decide
/-- P3 step 5: no response in the fault state. -/
theorem test_ldb_ignored : respAfter (exec (.ldb 8#7) faultedP3) = some none := by decide
/-- P3 step 4. -/
theorem test_rdsr_status : respAfter (exec (.rdsr 0#8) faultedP3) = some (some 0x05#8) := by decide
/-- P4 step 5. -/
theorem test_rdsr_acc : respAfter (exec (.rdsr 1#8) { zeroed with acc := 0x03#8 }) = some (some 0x03#8) := by decide

/-! Standard timing. -/

/-- P2 step 2. -/
theorem test_stSet_lossy : bytesAfter (exec (.stSet 2#3 1366#12 75#8 3#2) zeroed) 42#7 43#7 = some (some 0x8B#8, some 0xCF#8) := by decide
/-- ST-22: both out of range. -/
theorem test_stSet_priority : statusAfter (exec (.stSet 2#3 100#12 200#8 1#2) zeroed) 42#7 = some (0x05#8, some 0#8) := by decide
/-- S2. -/
theorem test_stUnset : bytesAfter (exec (.stUnset 5#3) zeroed) 48#7 49#7 = some (some 1#8, some 1#8) := by decide
/-- P2 steps 11 and 5: the neighbours of a slot stay. -/
theorem test_stUnset_neighbours : bytesAfter (exec (.stUnset 2#3) zeroed) 41#7 44#7 = some (some 0#8, some 0#8) := by decide

/-! Manufacturer code and gamma. -/

/-- MF-1. -/
theorem test_mfg : bytesAfter (exec (.mfg 9#5 7#5 20#5) zeroed) 8#7 9#7 = some (some 0x24#8, some 0xF4#8) := by decide
/-- MF-8. -/
theorem test_mfg_not_letters : bytesAfter (exec (.mfg 31#5 31#5 31#5) State.reset) 8#7 9#7 = some (some 0x7F#8, some 0xFF#8) := by decide
/-- GA-8: a tie goes upward. -/
theorem test_gamma_tie : statusAfter (exec (.gamma 2205#16) zeroed) 23#7 = some (0x00#8, some 0x79#8) := by decide
/-- GA-7. -/
theorem test_gamma_too_large : statusAfter (exec (.gamma 3545#16) zeroed) 23#7 = some (0x09#8, some 0x00#8) := by decide

/-! Checksum. -/

/-- CS-6. -/
theorem test_csum : ((nextOf (exec .csum ((zeroed.writeByte 0#7 0x10#8).writeByte 1#7 0xF3#8))).map fun t => (t.acc, t.byteAt 127#7)) =
    some (0x03#8, some 0xFD#8) := by decide +kernel
/-- CS-4: the sum wraps to 0; byte 127 held 55 and is not read. -/
theorem test_csum_wraps : ((nextOf (exec .csum (((zeroed.writeByte 0#7 0x80#8).writeByte 1#7 0x80#8).writeByte 127#7 0x55#8))).map
    fun t => (t.acc, t.byteAt 127#7)) = some (0x00#8, some 0x00#8) := by decide +kernel

/-! The step. -/

/-- The fetch hook: the very next step performs ST-15's word. -/
theorem test_step_fetch_word : bytesAfter (step (State.reset.withFetchWord 32 0x41F7B8F0)) 52#7 53#7 = some (some 0xFF#8, some 0xFF#8) := by decide
/-- FS-1. -/
theorem test_step_reserved : statusAfter (step (State.reset.giveCommand 0x00000000#32)) 0#7 = some (0x03#8, none) := by decide
/-- FS-7: ignored, the cause kept. -/
theorem test_step_reserved_ignored : statusAfter (step (faultedP3.giveCommand 0x90000002#32)) 8#7 = some (0x05#8, some 0x24#8) := by decide
/-- FS-8. -/
theorem test_step_reset : statusAfter (step { faultedP3 with inputs := [.reset] }) 8#7 = some (0x00#8, none) := by decide
/-- RA-7, in the spec's own form of the step. -/
theorem test_performWord : (performWord State.reset 0x90000000#32).2 = some 0x00#8 := by decide

/-! The assembler and the host procedures. -/

/-- R72: an operand that does not fit is refused, one out of range is accepted. -/
theorem test_assemble : assemble (.stSet 0 4096 60 1) = none ∧ assemble (.stb 128 0) = none ∧ assemble (.mfg 32 1 1) = none ∧
    assemble (.stSet 0 248 60 1) = some (.stSet 0#3 248#12 60#8 1#2) := by decide
/-- R73 and S7: "IGT" is 9, 7, 20; gamma 2.20 is 2200. -/
theorem test_pseudo : asmMfgCh 'I' 'G' 'T' = some (.mfg 9 7 20) ∧ asmGammaD 2 [2, 0] = some (.gamma 2200) := by decide
/-- P1 steps 10 to 18 (after `clr` and `hdr`), with its example values. -/
theorem test_defaultInit : (defaultInit exampleParams).toOption.map (fun l => ((l.drop 9).take 9).map fun x => (assemble x).map encode) =
    some [some 0x600024F4#32, some 0x20001201#32, some 0x20001303#32, some 0x20001480#32, some 0x20001534#32, some 0x2000161E#32,
      some 0x70000898#32, some 0x20001802#32, some 0x2000111E#32] := by decide
/-- R134: the three bytes are 21 08 00. -/
theorem test_established : [0, 1, 2].map (establishedByte exampleParams.established) = [0x21#8, 0x08#8, 0x00#8] := by decide
/-- U16: the years whose offset fits the byte. -/
theorem test_year_edges : [1989, 1990, 2245, 2246].map (fun y => (yearOffset y).toOption) = [none, some 0#8, some 255#8, none] := by decide

/-- A mode of 1920 by 1080 with horizontal blanking 280 (S8), 148500 kHz. -/
def mode1080 : DisplayMode :=
  { hactive := 1920, htotal := 2200, hsyncStart := 2008, hsyncEnd := 2052, vactive := 1080, vtotal := 1125, vsyncStart := 1084, vsyncEnd := 1089,
    clock := 148500, refresh := 60, hsyncPositive := true, vsyncPositive := true }

/-- The bytes written for a mode's pixel-timing record, in R134's layout and order. -/
def pixelBytes (m : DisplayMode) (width height : Nat) : Option (List Byte) :=
  (pixelTiming exampleParams m width height).toOption.map fun d => (packPixelTiming exampleFormat d).map Prod.snd

/-- R122 to R126 by hand: 14850 is 3A02; active 780, blank 118; 438, 02D; offsets 88 and 4, widths 44 and 5; 520 is 208, 300 is 12C; misc 18 + 4 + 2. -/
theorem test_pixelTiming : pixelBytes mode1080 520 300 =
    some [0x02#8, 0x3A#8, 0x80#8, 0x18#8, 0x71#8, 0x38#8, 0x2D#8, 0x40#8, 0x58#8, 0x2C#8, 0x45#8, 0x00#8, 0x08#8, 0x2C#8, 0x21#8, 0x00#8,
      0x00#8, 0x1E#8] := by decide
/-- R125's high bits: offset 3FF, width 2AA; offset 2A, width 15. -/
theorem test_pixelTiming_sync_high_bits :
    (pixelBytes { mode1080 with hsyncStart := 1920 + 0x3FF, hsyncEnd := 1920 + 0x3FF + 0x2AA, vsyncStart := 1080 + 0x2A, vsyncEnd := 1080 + 0x2A + 0x15 }
      520 300).map (fun l => (l.drop 8).take 4) = some [0xFF#8, 0xAA#8, 0xA5#8, 0xE9#8] := by decide
/-- R126, U14: with other bits and the other sense for the flags the misc byte follows the parameter. -/
theorem test_misc_layout : packMisc { base := 0xFF#8, hBit := 7, vBit := 0, hPositive := false, vPositive := true, distinct := by decide } true false =
    0x7E#8 := by decide
/-- R123: a tie goes as the parameter says, anything else to the nearest. -/
theorem test_clock_ties : [14, 15, 16, 25].map (clockTens { exampleParams with clockTieUp := fun n => n % 2 == 1 }) = [1, 2, 2, 2] := by decide
/-- R127, U16, R121, R122: each reason, at the edge. -/
theorem test_pixelTiming_stops :
    [{ mode1080 with hactive := 4096, htotal := 4100, hsyncStart := 4096, hsyncEnd := 4096 }, { mode1080 with vsyncEnd := 1084 + 0x40 },
      { mode1080 with clock := 655355 }, { mode1080 with clock := 4 }, { mode1080 with htotal := 1919 }].map
      (fun m => match pixelTiming exampleParams m 520 300 with | .ok _ => none | .error e => some e) =
    [some .preconditionViolated, some .preconditionViolated, some .clockDoesNotFit, some .clockRoundsToZero, some .negativeDifference] := by decide
/-- R128 by hand: 148500 div 2200 = 67; the ceiling of 14.85 is 15. -/
theorem test_monitorRange : (monitorRange exampleParams mode1080).toOption.map (fun d => (packMonitorRange exampleFormat d).map Prod.snd) =
    some [0x00#8, 0x00#8, 0x00#8, 0xFD#8, 0x00#8, 59#8, 61#8, 66#8, 68#8, 15#8, 0x00#8, 0x0A#8, 0x20#8, 0x20#8, 0x20#8, 0x20#8, 0x20#8,
      0x20#8] := by decide
/-- S9: the two string examples. -/
theorem test_strings : (stringPayload 0x0A#8 (List.replicate 20 65#8)) = List.replicate 13 65#8 ∧
    (stringPayload 0x0A#8 (List.replicate 5 65#8))[5]? = some 0x0A#8 := by decide
/-- R129: the type byte of a dummy descriptor is no textual subtype. -/
theorem test_string_subtype : (match stringDescriptor exampleFormat 0x10#8 [65#8] with | .ok _ => none | .error e => some e) =
    some .notTextualSubtype ∧ (stringDescriptor exampleFormat 0xFF#8 [65#8]).toOption = some (.text .serialNumber [65#8]) := by decide
/-- R132, R133: mode initialization ends with slot 3's last byte, 125, and its type byte at 111. -/
theorem test_modeInit : (modeInit exampleParams mode1080).toOption.map (fun l => (l.getLast?, l.contains (.stb 111 0x10), l.contains (.stb 54 0x02))) =
    some (some (.stb 125 0), true, true) := by decide +kernel

/-! The end of a run. -/

/-- R73: the words of `dump` are the words of its lines. -/
theorem test_dumpWords : assembleAll asmDump = some dumpWords := by decide +kernel
/-- P3: the run asks for 5 response bytes, gets 4, and has not ended well, whatever is reset afterwards. -/
theorem test_faulted_run : let ws := [0x10000000#32, 0x600024F4#32, 0x4013C0F8#32, 0x90000000#32, 0x30000800#32, 0x90000000#32, 0x90000001#32,
      0x90000002#32, 0x90000000#32]
    (runAfterReset State.reset ws).2 = [0x05#8, 0x05#8, 0x00#8, 0x05#8] ∧ (ws.filter asksForByte).length = 5 ∧ ¬ runEndedWell State.reset ws := by
  decide +kernel
/-- P4: a run that ends well, and has no result since it does not end in a `dump`. -/
theorem test_good_run : let ws := [0x10000000#32, 0x20000010#32, 0x200001F3#32, 0x80000000#32, 0x90000001#32, 0x30007F00#32]
    (runAfterReset State.reset ws).2 = [0x03#8, 0xFD#8] ∧ runEndedWell State.reset ws ∧ runResult State.reset ws = none := by
  decide +kernel

/-! Witnesses: for every statement with hypotheses, a state and operands that meet all of them, at the edges of each clause. -/

/-- A state that is not in the fault state and one that is, neither with a reset among its inputs. -/
theorem witness_unfaulted_and_faulted : State.reset.faulted = false ∧ faultedP3.faulted = true := by decide

theorem witness_StSetRaisesHsizeRange : State.reset.faulted = false := by decide
theorem witness_GammaRaisesGammaRange : State.reset.faulted = false := by decide
theorem witness_ClrZeroesTheRecord : State.reset.faulted = false := by decide
theorem witness_StbStoresOneByte : State.reset.faulted = false := by decide
theorem witness_LdbRespondsWithTheByte : State.reset.faulted = false := by decide
theorem witness_StUnsetWritesTheSentinel : State.reset.faulted = false := by decide
theorem witness_MfgPacksThreeLetters : State.reset.faulted = false := by decide
theorem witness_MfgUnpacksForEveryTriple : State.reset.faulted = false := by decide
theorem witness_CsumFinalizes : State.reset.faulted = false := by decide
theorem witness_RdsrRespondsWithStatus : statusLegal State.reset.status = true ∧ State.reset.faulted = false ∧
    statusLegal faultedP3.status = true := by decide
theorem witness_TimingUnpacks : State.reset.faulted = false ∧ 256 ≤ (2288#12).toNat ∧ (2288#12).toNat ≤ 2288 ∧ 60 ≤ (60#8).toNat ∧
    (60#8).toNat ≤ 123 := by decide
theorem witness_PackedTimingBytesInRange : (256 ≤ (256#12).toNat ∧ (256#12).toNat ≤ 2288) ∧ (60 ≤ (123#8).toNat ∧ (123#8).toNat ≤ 123) := by decide
theorem witness_DecodeOfEncode : (Instr.rdsr 1#8).wf = true ∧ (Instr.stSet 7#3 4095#12 255#8 3#2).wf = true := by decide
theorem witness_EncodeOfDecode : decode 0x90000001#32 = .ok (.rdsr 1#8) := by rfl
theorem witness_AtMostOneRowMatches : ∃ r ∈ opTable, ∃ q ∈ opTable, ∃ w, r.accepts w = true ∧ q.accepts w = true :=
  ⟨rowStb, by decide, rowStb, by decide, 0x20007FFF#32, by decide⟩
theorem witness_StepRunsTheDecodedCommand : ∃ (s : State) (rest : List Input),
    s.inputs = .command 0x10000000#32 :: rest ∧ decode 0x10000000#32 = .ok .clr :=
  ⟨State.reset.giveCommand 0x10000000#32, [], rfl, rfl⟩
theorem witness_StepWaitsWithoutInput : State.reset.inputs = [] := rfl
theorem witness_HostResetEffect : ∃ (s : State) (rest : List Input), s.inputs = .reset :: rest ∧ s.faulted = true :=
  ⟨{ faultedP3 with inputs := [.reset] }, [], rfl, by decide⟩
theorem witness_StepKeepsInv : State.reset.Inv ∧ step State.reset = .next State.reset.wait :=
  ⟨⟨Memory.wf_nil, by decide⟩, rfl⟩
theorem witness_FaultEntryWritesStatusOnly :
    State.reset.faulted = false ∧ faultOf (.stSet 0#3 255#12 60#8 1#2) = some .hsizeRange ∧
    faultOf (.stSet 0#3 2289#12 124#8 1#2) = some .hsizeRange ∧ faultOf (.stSet 0#3 256#12 59#8 1#2) = some .vfreqRange ∧
    faultOf (.stSet 0#3 2288#12 124#8 1#2) = some .vfreqRange ∧ faultOf (.gamma 994#16) = some .gammaRange ∧
    faultOf (.gamma 3545#16) = some .gammaRange ∧ faultOf (.rdsr 2#8) = some .illegalCmd := by decide
theorem witness_ReservedWordRaisesIllegalCmd :
    State.reset.faulted = false ∧ reservedWord 0x00000000#32 ∧ reservedWord 0xA0000000#32 ∧ reservedWord 0x10000001#32 ∧
    reservedWord 0x20008000#32 ∧ reservedWord 0x30000001#32 ∧ reservedWord 0x42000000#32 ∧ reservedWord 0x50000001#32 ∧
    reservedWord 0x60008000#32 ∧ reservedWord 0x70010000#32 ∧ reservedWord 0x80000001#32 ∧ reservedWord 0x90000002#32 := by
  refine ⟨?_, ?_, ?_, ?_, ?_, ?_, ?_, ?_, ?_, ?_, ?_, ?_⟩ <;> decide
theorem witness_PerformedCommandKeepsStatus :
    State.reset.faulted = false ∧ faultOf (.stSet 0#3 2288#12 123#8 3#2) = none ∧ faultOf (.gamma 995#16) = none ∧
    faultOf (.gamma 3544#16) = none ∧ faultOf (.rdsr 1#8) = none ∧ faultOf .csum = none := by decide
theorem witness_StSetRaisesVfreqRange : State.reset.faulted = false ∧ 256 ≤ (2288#12).toNat ∧ (2288#12).toNat ≤ 2288 ∧
    faultOf (.stSet 0#3 2288#12 59#8 0#2) = some .vfreqRange ∧ faultOf (.stSet 0#3 2288#12 60#8 0#2) = none ∧
    faultOf (.stSet 0#3 2288#12 123#8 0#2) = none ∧ faultOf (.stSet 0#3 2288#12 124#8 0#2) = some .vfreqRange := by decide
theorem witness_ConditionsInPriorityOrder : State.reset.faulted = false ∧ reservedWord 0x4213C064#32 ∧
    ∃ t, exec (.gamma 994#16) State.reset = .next t ∧ t.status = 0x09#8 := ⟨by decide, by decide, _, rfl, by decide⟩
theorem witness_FaultStateIgnoresAllButRdsr : faultedP3.faulted = true ∧
    ∃ rest, ({ faultedP3 with inputs := [.reset] } : State).inputs = .reset :: rest := ⟨by decide, [], rfl⟩
theorem witness_FaultStateLeftOnlyByReset : ∃ s t : State, s.faulted = true ∧ step s = .next t ∧ t.faulted = false :=
  ⟨{ faultedP3 with inputs := [.reset] }, _, by decide, rfl, by decide⟩
theorem witness_FaultStateAbsorbsEveryRun : (faultedP3.giveCommand 0x10000000#32).faulted = true ∧
    ∀ e ∈ (faultedP3.giveCommand 0x10000000#32).inputs, e ≠ Input.reset := by decide
theorem witness_OnlyLdbAndRdsrRespond : ∃ s t : State, exec (.ldb 0#7) s = .next t ∧ s.faulted = false := ⟨State.reset, _, rfl, by decide⟩
theorem witness_StSetPacksItsSlot : State.reset.faulted = false ∧
    (256 ≤ (256#12).toNat ∧ (256#12).toNat ≤ 2288 ∧ 60 ≤ (60#8).toNat ∧ (60#8).toNat ≤ 123) ∧
    (256 ≤ (2288#12).toNat ∧ (2288#12).toNat ≤ 2288 ∧ 60 ≤ (123#8).toNat ∧ (123#8).toNat ≤ 123) := by decide
theorem witness_SentinelCollidesWithOneTriple : State.reset.faulted = false ∧
    256 ≤ (263#12).toNat ∧ (263#12).toNat ≤ 2288 ∧ 60 ≤ (61#8).toNat ∧ (61#8).toNat ≤ 123 ∧
    stByte0 263#12 = 1#8 ∧ stByte0 264#12 ≠ 1#8 ∧ stByte1 61#8 0#2 = 1#8 := by decide
theorem witness_StSetDropsTheLowThreeBits : State.reset.faulted = false ∧
    (256 ≤ (263#12).toNat ∧ (263#12).toNat ≤ 2288 ∧ (256#12).toNat = (263#12).toNat - (263#12).toNat % 8) ∧
    (2289 ≤ (2289#12).toNat ∧ (2295#12).toNat ≤ 2295) := by decide
theorem witness_GammaPacksItsByte : State.reset.faulted = false ∧
    (100 ≤ ((995#16).toNat + 5) / 10 ∧ ((995#16).toNat + 5) / 10 ≤ 354) ∧
    (100 ≤ ((3544#16).toNat + 5) / 10 ∧ ((3544#16).toNat + 5) / 10 ≤ 354) := by decide
theorem witness_GammaRangeEdges : gammaLegal 994#16 = false ∧ gammaByte 1004#16 = 0x00#8 ∧ gammaByte 1005#16 = 0x01#8 ∧
    gammaByte 3534#16 = 0xFD#8 ∧ gammaByte 3535#16 = 0xFE#8 ∧ gammaLegal 3545#16 = false := by decide

theorem zeroed_writtenBelow (n : Nat) : zeroed.writtenBelow n := fun a _ h =>
  Option.some_ne_none _ ((State.clearRecord_byteAt State.reset a).symm.trans h)

theorem zeroed_faulted : zeroed.faulted = false := State.clearRecord_faulted State.reset

theorem witness_CsumIsIdempotent : zeroed.faulted = false ∧ zeroed.writtenBelow 127 :=
  ⟨zeroed_faulted, zeroed_writtenBelow 127⟩
theorem witness_FinalizedRecordSumsToZero : zeroed.faulted = false ∧ zeroed.writtenBelow 127 :=
  ⟨zeroed_faulted, zeroed_writtenBelow 127⟩
theorem witness_CsumDependsOnTheSpanOnly : ∃ s t : State, s.faulted = false ∧ t.faulted = false ∧ s.writtenBelow 127 ∧
    (∀ a : Addr, a.toNat < 127 → t.byteAt a = s.byteAt a) ∧ t.acc ≠ s.acc := by
  refine ⟨zeroed, zeroed.setAcc 1#8, zeroed_faulted, ?_, zeroed_writtenBelow 127, fun a _ => State.setAcc_byteAt .., ?_⟩
  · rw [State.setAcc_faulted]
    exact zeroed_faulted
  · rw [zeroed, State.setAcc_acc, State.clearRecord_acc]
    decide
theorem witness_RecordChangesOnlyWhereACommandWrites : ∃ (s t : State) (a : Addr), step s = .next t ∧ t.byteAt a ≠ s.byteAt a :=
  ⟨State.reset.giveCommand 0x20007FFF#32, _, 127#7, rfl, by decide⟩
theorem witness_AccChangesOnlyByCsumAndReset : ∃ s t : State, step s = .next t ∧ t.acc ≠ s.acc :=
  ⟨{ State.reset with acc := 1#8, inputs := [.reset] }, _, rfl, by decide⟩
theorem witness_StatusChangesOnlyByFaultAndReset : ∃ s t : State, step s = .next t ∧ t.status ≠ s.status :=
  ⟨State.reset.giveCommand 0x00000000#32, _, rfl, by decide⟩
theorem witness_UnreadByteDoesNotInterfere : ¬ readsFrom .csum 127#7 ∧ (∀ a, readsFrom .csum a → zeroed.byteAt a ≠ none) ∧
    zeroed.faulted = false ∧ faultOf .csum = none ∧ writesTo .csum 127#7 :=
  ⟨by unfold readsFrom; decide, fun a h => zeroed_writtenBelow 127 a h, zeroed_faulted, rfl, rfl⟩
theorem witness_StoredByteIsReadBack : State.reset.faulted = false ∧
    ∀ i ∈ [Instr.mfg 1#5 2#5 3#5, .csum, .stUnset 7#3], faultOf i = none ∧ ¬ writesTo i 18#7 := by
  refine ⟨by decide, fun i hi => ?_⟩
  simp only [List.mem_cons, List.not_mem_nil, or_false] at hi
  rcases hi with rfl | rfl | rfl <;> exact ⟨rfl, by unfold writesTo; decide⟩
theorem witness_DisjointCommandsCommute : State.reset.faulted = false ∧ faultOf (.mfg 9#5 7#5 20#5) = none ∧
    faultOf (.gamma 2200#16) = none ∧ (∀ a, ¬ readsFrom (.mfg 9#5 7#5 20#5) a) ∧ (∀ a, ¬ readsFrom (.gamma 2200#16) a) ∧
    ∀ a, ¬ (writesTo (.mfg 9#5 7#5 20#5) a ∧ writesTo (.gamma 2200#16) a) :=
  ⟨by decide, by decide, by decide, fun _ h => h, fun _ h => h, fun a h => by simp only [writesTo] at h; omega⟩

theorem test_decode_clr_word : decode 0x10000000#32 = .ok .clr := by rfl

/-- `clr` after a reset. -/
theorem clr_run : (runAfterReset State.reset [0x10000000#32]).1 = State.reset.hostReset.quiet.clearRecord.advance := by
  have h := performWord_unfaulted (s := State.reset.hostReset) (by decide) test_decode_clr_word
  rw [runAfterReset, runWords_cons, h]
  simp only [runWords, bodyOf]

theorem clr_run_written (n : Nat) : (runAfterReset State.reset [0x10000000#32]).1.writtenBelow n := fun a _ h => by
  rw [clr_run, State.advance_byteAt, State.clearRecord_byteAt] at h
  cases h

theorem clr_run_faulted : (runAfterReset State.reset [0x10000000#32]).1.faulted = false := by
  rw [clr_run, State.advance_faulted, State.clearRecord_faulted]
  decide

theorem witness_RunEndsWellUnlessItFaults : State.reset.inputs = [] := rfl
theorem witness_RunResultIsTheRecord : State.reset.inputs = [] ∧ (runAfterReset State.reset [0x10000000#32]).1.faulted = false ∧
    (runAfterReset State.reset [0x10000000#32]).1.writtenBelow 128 := ⟨rfl, clr_run_faulted, clr_run_written 128⟩
theorem witness_FinalizedRunResultSumsToZero : State.reset.inputs = [] ∧ (runAfterReset State.reset [0x10000000#32]).1.faulted = false ∧
    (runAfterReset State.reset [0x10000000#32]).1.writtenBelow 127 := ⟨rfl, clr_run_faulted, clr_run_written 127⟩
/-- A text of full length, and every other variant, at a layout. -/
theorem witness_DescriptorUnpacks :
    (∀ kind chars, Descriptor.text .serialNumber (List.replicate 13 65#8) = .text kind chars → chars.length ≤ 13 ∧ exampleFormat.newline ∉ chars) ∧
    (∀ kind chars, Descriptor.dummy = .text kind chars → chars.length ≤ 13 ∧ exampleFormat.newline ∉ chars) := by
  refine ⟨fun kind chars h => ?_, fun kind chars h => by cases h⟩
  cases h
  decide
/-- A mode that meets every bound of R127 with equality, its clock the largest that fits. -/
def modeAtBounds : DisplayMode :=
  { hactive := 0xFFF, htotal := 0xFFF + 0xFFF, hsyncStart := 0xFFF + 0x3FF, hsyncEnd := 0xFFF + 0x3FF + 0x3FF, vactive := 0xFFF,
    vtotal := 0xFFF + 0xFFF, vsyncStart := 0xFFF + 0x3F, vsyncEnd := 0xFFF + 0x3F + 0x3F, clock := 655354, refresh := 60,
    hsyncPositive := false, vsyncPositive := false }
/-- The clauses of R127 at their edges, and a rounded clock of 65535 and of 1. -/
theorem witness_PixelTimingOfAMode :
    (pixelTiming exampleParams modeAtBounds 0xFFF 0xFFF).toOption.map (fun d => d.clock) = some 65535#16 ∧
    (pixelTiming exampleParams { mode1080 with clock := 5 } 0 0).toOption.map (fun d => d.clock) = some 1#16 := by decide
theorem witness_DescriptorBytes : ∃ d e, pixelTiming exampleParams mode1080 520 300 = .ok d ∧ monitorRange exampleParams mode1080 = .ok e ∧
    monitorRange { exampleParams with clockPlusOne := true } mode1080 = .ok e := ⟨_, _, rfl, rfl, rfl⟩
theorem witness_StringDescriptorPayload : ∀ kind, (0x10#8 : Byte) ≠ exampleFormat.types.ofKind kind := by
  intro kind
  cases kind <;> decide
/-- The earliest and the latest year that fit. -/
theorem witness_DefaultInitialization : ∃ lines last, defaultInit { exampleParams with currentYear := 1990 } = .ok lines ∧
    defaultInit { exampleParams with currentYear := 2245 } = .ok last := ⟨_, _, rfl, rfl⟩

end Sys2Proof.Tests
end

/-! SUPPORT. Proofs for 00_scope.md: every step answers, and what a performed command does to STATUS and the response port. -/

namespace Sys2Proof.Machine

/-! Every command and every step answers a next state. -/

/-- No arm refuses a command and none faults the machine (log 5), in or out of the fault state. -/
theorem exec_answers_next (i : Instr) (s : State) : ∃ t, exec i s = .next t := by
  cases hf : s.faulted with
  | false => exact ⟨_, exec_unfaulted hf i⟩
  | true =>
    rw [exec_faulted hf]
    split
    · split <;> exact ⟨_, rfl⟩
    · exact ⟨_, rfl⟩

theorem step_answers_next (s : State) : ∃ t, step s = .next t := by
  match hin : s.inputs with
  | [] => exact ⟨_, step_wait hin⟩
  | .reset :: rest => exact ⟨_, step_reset hin⟩
  | .command w :: rest =>
    rw [step_command hin]
    cases decode w with
    | ok i => exact exec_answers_next i _
    | error r => exact ⟨_, rfl⟩

theorem step_of_decode {s : State} {w : CmdWord} {rest : List Input} {i : Instr}
    (hin : s.inputs = .command w :: rest) (hd : decode w = .ok i) : step s = exec i { s with inputs := rest } := by
  rw [step_command hin, hd]

/-! The cause table of 60_exceptions.md R140 and the block's own operand checks agree. -/

theorem csrAssigned_iff (csr : BitVec 8) : csrAssigned csr = true ↔ csr.toNat < 2 := by
  simp only [csrAssigned, decide_eq_true_eq]

theorem faultOf_stSet_eq_none_iff (slot : BitVec 3) (hsize : BitVec 12) (vfreq : BitVec 8) (aspect : BitVec 2) :
    faultOf (.stSet slot hsize vfreq aspect) = none ↔ hsizeLegal hsize = true ∧ vfreqLegal vfreq = true := by
  rw [hsizeLegal_iff, vfreqLegal_iff, faultOf]
  split
  · simp only [reduceCtorEq, false_iff]
    omega
  · split
    · simp only [reduceCtorEq, false_iff]
      omega
    · simp only [true_iff]
      omega

theorem faultOf_gamma_eq_none_iff (g : BitVec 16) : faultOf (.gamma g) = none ↔ gammaLegal g = true := by
  rw [gammaLegal_iff, faultOf]
  split
  · simp only [reduceCtorEq, false_iff]
    omega
  · simp only [true_iff]
    omega

theorem faultOf_rdsr_eq_none_iff (csr : BitVec 8) : faultOf (.rdsr csr) = none ↔ csrAssigned csr = true := by
  rw [csrAssigned_iff, faultOf]
  split <;> simp [*]

/-! What a command's body leaves of STATUS and of the response port. -/

/-- A well-formed `rdsr` is its one response (40_record_access.md R83). -/
theorem bodyOf_rdsr {csr : BitVec 8} (h : csrAssigned csr = true) (t : State) :
    bodyOf (.rdsr csr) t = t.respond (t.readCsr csr) := by
  simp [bodyOf, h]

/-- Only `State.raise` writes STATUS, and a command that meets no fault condition does not come to it. -/
theorem bodyOf_status_of_no_fault {i : Instr} (h : faultOf i = none) (t : State) : (bodyOf i t).status = t.status := by
  cases i with
  | clr => exact t.clearRecord_status
  | stb | ldb | stUnset | mfg | csum => rfl
  | stSet slot hsize vfreq aspect =>
    obtain ⟨hh, hv⟩ := (faultOf_stSet_eq_none_iff ..).1 h
    rw [bodyOf_stSet hh hv, State.writePair_status]
  | gamma g => rw [bodyOf_gamma ((faultOf_gamma_eq_none_iff g).1 h), State.writeByte_status]
  | rdsr csr => rw [bodyOf_rdsr ((faultOf_rdsr_eq_none_iff csr).1 h), State.respond_status]

/-- The command responds when it is performed: it is `ldb` or a well-formed `rdsr` (92_eei_decisions.md D27). -/
def respondsWhenPerformed (i : Instr) : Prop := (∃ addr, i = .ldb addr) ∨ ∃ csr, i = .rdsr csr ∧ csr.toNat < 2

theorem respondsWhenPerformed_rdsr_iff (csr : BitVec 8) :
    respondsWhenPerformed (.rdsr csr) ↔ csrAssigned csr = true := by
  simp only [csrAssigned_iff, respondsWhenPerformed, reduceCtorEq, exists_false, false_or, Instr.rdsr.injEq,
    exists_eq_left']

/-- A command's body shows a response on a cleared port exactly when the command is one that responds. -/
theorem bodyOf_resp_ne_none_iff (i : Instr) {t : State} (h : t.resp = none) :
    (bodyOf i t).resp ≠ none ↔ respondsWhenPerformed i := by
  cases i with
  | ldb addr => simp [respondsWhenPerformed, bodyOf]
  | rdsr csr =>
    rw [respondsWhenPerformed_rdsr_iff, bodyOf]
    split <;> simp [*]
  | clr | stb | stSet | stUnset | mfg | gamma | csum =>
    simp [respondsWhenPerformed, bodyOf, apply_ite State.resp, h]

/-- In the fault state a well-formed `rdsr` responds and nothing else does (60_exceptions.md R146). -/
theorem exec_faulted_resp_ne_none_iff {s t : State} {i : Instr} (hf : s.faulted = true) (h : exec i s = .next t) :
    t.resp ≠ none ↔ ∃ csr, i = .rdsr csr ∧ csr.toNat < 2 := by
  rw [exec_faulted hf] at h
  split at h
  next csr =>
    simp only [Instr.rdsr.injEq, exists_eq_left', ← csrAssigned_iff]
    split at h <;> cases h <;> simp [*]
  next hi =>
    cases h
    exact iff_of_false (fun hr => hr rfl) fun ⟨csr, he, _⟩ => hi csr he

theorem exec_unfaulted_resp_ne_none_iff {s t : State} {i : Instr} (hf : s.faulted = false) (h : exec i s = .next t) :
    t.resp ≠ none ↔ respondsWhenPerformed i := by
  rw [exec_unfaulted hf] at h
  cases h
  rw [State.advance_resp, bodyOf_resp_ne_none_iff i s.quiet_resp]

/-! The obligations. -/

/-- Settles O15: out of the fault state `exec` is the command's body, which keeps STATUS unless it raises a fault. -/
theorem performedCommandKeepsStatus : Obligations.PerformedCommandKeepsStatus := by
  intro s i hf hc
  exact ⟨_, exec_unfaulted hf i, bodyOf_status_of_no_fault hc s.quiet⟩

/-- Settles O28, by cases on the fault state. -/
theorem onlyLdbAndRdsrRespond : Obligations.OnlyLdbAndRdsrRespond := by
  intro i s t h
  cases hf : s.faulted with
  | false => simpa [respondsWhenPerformed] using exec_unfaulted_resp_ne_none_iff hf h
  | true => simpa using exec_faulted_resp_ne_none_iff hf h

/-- Settles O6: the equation of a step whose next input is a word, at a word that decodes. -/
theorem stepRunsTheDecodedCommand : Obligations.StepRunsTheDecodedCommand :=
  fun _ _ _ _ => step_of_decode

/-- Settles O8: waiting, a reset, a reserved word and a command each answer a next state. -/
theorem stepAlwaysAnswersNext : Obligations.StepAlwaysAnswersNext :=
  step_answers_next

end Sys2Proof.Machine

/-! SUPPORT. Proofs for 10_state.md: what a step can do to the record, STATUS and ACC, and the invariant every step keeps. -/

namespace Sys2Proof.Machine

/-! What a command's body does to the record and to ACC. -/

/-- The two addresses R41 lists for a slot are those R46 computes. -/
theorem slot_addr_iff (slot : BitVec 3) (a : Addr) :
    (a.toNat = 38 + 2 * slot.toNat ∨ a.toNat = 39 + 2 * slot.toNat) ↔ (a = slotBase slot ∨ a = nextAddr (slotBase slot)) := by
  rw [← BitVec.toNat_inj, ← BitVec.toNat_inj, slotBase_toNat, nextAddr_slotBase_toNat]

theorem mfg_addr_iff (a : Addr) : (a.toNat = 8 ∨ a.toNat = 9) ↔ (a = mfgAddr ∨ a = nextAddr mfgAddr) := by
  rw [← BitVec.toNat_inj, ← BitVec.toNat_inj]
  rfl

theorem State.byteAt_of_mem {s t : State} (h : t.mem = s.mem) (a : Addr) : t.byteAt a = s.byteAt a := by
  rw [State.byteAt, State.byteAt, h]

theorem State.writeByte_byteAt_other {a b : Addr} (h : b ≠ a) (s : State) (v : Byte) :
    (s.writeByte a v).byteAt b = s.byteAt b := by
  rw [State.writeByte_byteAt, if_neg h]

theorem State.writePair_byteAt_other {a b : Addr} (h : ¬ (b = a ∨ b = nextAddr a)) (s : State) (v w : Byte) :
    (s.writePair a v w).byteAt b = s.byteAt b := by
  obtain ⟨ha, hn⟩ := not_or.1 h
  rw [State.writePair_byteAt, if_neg hn, if_neg ha]

/-- A command leaves every byte of the record that R41 does not list as written by it. -/
theorem bodyOf_byteAt_of_not_writesTo {i : Instr} {a : Addr} (h : ¬ writesTo i a) (t : State) :
    (bodyOf i t).byteAt a = t.byteAt a := by
  cases hc : faultOf i with
  | some c => rw [bodyOf_of_fault hc, State.raise_byteAt]
  | none =>
    cases i with
    | clr => exact absurd trivial h
    | stb addr val => exact State.writeByte_byteAt_other h t val
    | ldb => rfl
    | stSet slot hsize vfreq aspect =>
      obtain ⟨hh, hv⟩ := (faultOf_stSet_eq_none_iff ..).1 hc
      rw [bodyOf_stSet hh hv]
      exact State.writePair_byteAt_other (mt (slot_addr_iff slot a).2 h) t _ _
    | stUnset slot => exact State.writePair_byteAt_other (mt (slot_addr_iff slot a).2 h) t _ _
    | mfg => exact State.writePair_byteAt_other (mt (mfg_addr_iff a).2 h) t _ _
    | gamma g =>
      rw [bodyOf_gamma ((faultOf_gamma_eq_none_iff g).1 hc)]
      exact State.writeByte_byteAt_other (by rintro rfl; exact h rfl) t _
    | csum => exact State.writeByte_byteAt_other (by rintro rfl; exact h rfl) (t.setAcc t.spanSum) _
    | rdsr csr => rw [bodyOf_rdsr ((faultOf_rdsr_eq_none_iff csr).1 hc), State.respond_byteAt]

/-- Every command keeps the record in canonical form: it writes by `writeByte` alone (20_memory.md R40). -/
theorem bodyOf_mem_wf (i : Instr) {t : State} (h : t.mem.wf) : (bodyOf i t).mem.wf := by
  cases hc : faultOf i with
  | some c => rwa [bodyOf_of_fault hc, State.raise_mem]
  | none =>
    cases i with
    | clr => exact State.clearRecord_wf h
    | stb => exact State.writeByte_wf h _ _
    | ldb => exact h
    | stSet slot hsize vfreq aspect =>
      obtain ⟨hh, hv⟩ := (faultOf_stSet_eq_none_iff ..).1 hc
      rw [bodyOf_stSet hh hv]
      exact State.writePair_wf h _ _ _
    | stUnset => exact State.writePair_wf h _ _ _
    | mfg => exact State.writePair_wf h _ _ _
    | gamma g =>
      rw [bodyOf_gamma ((faultOf_gamma_eq_none_iff g).1 hc)]
      exact State.writeByte_wf h _ _
    | csum => exact State.writeByte_wf (s := t.setAcc t.spanSum) h _ _
    | rdsr csr => rwa [bodyOf_rdsr ((faultOf_rdsr_eq_none_iff csr).1 hc), State.respond_mem]

/-- Only `csum` writes ACC (R22). -/
theorem bodyOf_acc_of_ne_csum {i : Instr} (h : i ≠ .csum) (t : State) : (bodyOf i t).acc = t.acc := by
  cases i with
  | csum => exact absurd rfl h
  | clr => exact t.clearRecord_acc
  | stb | ldb | stUnset | mfg => rfl
  | stSet | gamma | rdsr => simp [bodyOf, apply_ite State.acc]

/-! The word of a command. -/

/-- A word that decodes is accepted by the row of the command it decodes to (30_encoding.md R69). -/
theorem rowOf_accepts_of_decode {w : CmdWord} {i : Instr} (h : decode w = .ok i) : (Laws.rowOf i).accepts w = true := by
  unfold decode at h
  split_ifs at h <;> cases h <;> assumption

/-- `csum` has one word, since its row masks nothing out (30_encoding.md R69, 43_checksum.md R110). -/
theorem eq_of_decode_csum {w : CmdWord} (h : decode w = .ok .csum) : w = 0x80000000#32 := by
  have hw : w &&& BitVec.allOnes 32 = 0x80000000#32 := (OpRow.accepts_iff rowCsum w).1 (rowOf_accepts_of_decode h)
  rwa [BitVec.and_allOnes] at hw

/-! What a step can do. -/

/-- In the fault state a command changes nothing but the response port and the index (60_exceptions.md R146). -/
theorem exec_faulted_next {s : State} (hf : s.faulted = true) (i : Instr) :
    ∃ r, exec i s = .next { s with resp := r, index := s.index + 1 } := by
  rw [exec_faulted hf]
  split
  · split <;> exact ⟨_, rfl⟩
  · exact ⟨_, rfl⟩

/-- What a step from `s` to `t` does to the state R23 gives the block: the record, STATUS and ACC. -/
inductive StepEffect (s t : State) : Prop
  /-- The block waited, or was in the fault state and took a word. -/
  | unchanged (mem : t.mem = s.mem) (status : t.status = s.status) (acc : t.acc = s.acc)
  /-- The host's reset (R29). -/
  | reset (rest : List Input) (inputs : s.inputs = .reset :: rest) (eq : t = ({ s with inputs := rest } : State).hostReset)
  /-- Fault entry, by a reserved word or by a command that meets its condition (60_exceptions.md R141). -/
  | fault (unfaulted : s.faulted = false) (c : Cause) (mem : t.mem = s.mem) (status : t.status = faultStatus c) (acc : t.acc = s.acc)
  /-- A command performed. -/
  | performed (unfaulted : s.faulted = false) (w : CmdWord) (rest : List Input) (i : Instr) (inputs : s.inputs = .command w :: rest)
      (decoded : decode w = .ok i) (noFault : faultOf i = none)
      (eq : t = (bodyOf i ({ s with inputs := rest } : State).quiet).advance)

/-- Every step that answers a next state has one of the four effects. -/
theorem stepEffect_of_step {s t : State} (h : step s = .next t) : StepEffect s t := by
  obtain ⟨-, rfl⟩ | ⟨rest, hin, rfl⟩ | ⟨w, rest, r, -, -, rfl⟩ | ⟨w, rest, i, hin, hd, he⟩ := step_cases h
  · exact .unchanged rfl rfl rfl
  · exact .reset rest hin rfl
  · cases hf : s.faulted with
    | false =>
      rw [illegalCommand_unfaulted (s := { s with inputs := rest }) hf]
      exact .fault hf .illegalCmd rfl rfl rfl
    | true =>
      rw [illegalCommand_faulted (s := { s with inputs := rest }) hf]
      exact .unchanged rfl rfl rfl
  · cases hf : s.faulted with
    | false =>
      rw [exec_unfaulted (s := { s with inputs := rest }) hf] at he
      cases he
      cases hc : faultOf i with
      | none => exact .performed hf w rest i hin hd hc rfl
      | some c =>
        rw [bodyOf_of_fault hc]
        exact .fault hf c rfl rfl rfl
    | true =>
      obtain ⟨r, hr⟩ := exec_faulted_next (s := { s with inputs := rest }) hf i
      rw [hr] at he
      cases he
      exact .unchanged rfl rfl rfl

/-! The obligations. -/

/-- Settles O9: each field of the reset state is the one R29 gives. -/
theorem resetState : Obligations.ResetState :=
  ⟨rfl, rfl, rfl, rfl, fun _ => rfl⟩

/-- Settles O11: the empty record is canonical and 0x00 is a legal STATUS. -/
theorem resetMeetsInv : Obligations.ResetMeetsInv :=
  ⟨State.reset_mem_wf, rfl⟩

/-- Settles O12, by the four effects a step can have. -/
theorem stepKeepsInv : Obligations.StepKeepsInv := by
  rintro s t ⟨hwf, hlegal⟩ h
  cases stepEffect_of_step h with
  | unchanged mem status acc => exact ⟨mem ▸ hwf, status ▸ hlegal⟩
  | reset rest inputs eq => exact eq ▸ resetMeetsInv
  | fault unfaulted c mem status acc => exact ⟨mem ▸ hwf, status ▸ faultStatus_legal c⟩
  | performed unfaulted w rest i inputs decoded noFault eq =>
    subst eq
    refine ⟨bodyOf_mem_wf i hwf, ?_⟩
    rwa [State.advance_status, bodyOf_status_of_no_fault noFault]

/-- Settles O45: of the four effects only a reset and a performed command touch the record, and the command only the bytes it writes. -/
theorem recordChangesOnlyWhereACommandWrites : Obligations.RecordChangesOnlyWhereACommandWrites := by
  intro s t a h hne
  cases stepEffect_of_step h with
  | unchanged mem status acc => exact absurd (State.byteAt_of_mem mem a) hne
  | reset rest inputs eq => exact .inl ⟨rest, inputs⟩
  | fault unfaulted c mem status acc => exact absurd (State.byteAt_of_mem mem a) hne
  | performed unfaulted w rest i inputs decoded noFault eq =>
    refine .inr ⟨unfaulted, w, rest, i, inputs, decoded, noFault, ?_⟩
    subst eq
    by_contra hw
    exact hne (bodyOf_byteAt_of_not_writesTo hw _)

/-- Settles O46: of the four effects only a reset and a performed `csum` touch ACC. -/
theorem accChangesOnlyByCsumAndReset : Obligations.AccChangesOnlyByCsumAndReset := by
  intro s t h hne
  cases stepEffect_of_step h with
  | unchanged mem status acc => exact absurd acc hne
  | reset rest inputs eq => exact .inl ⟨rest, inputs⟩
  | fault unfaulted c mem status acc => exact absurd acc hne
  | performed unfaulted w rest i inputs decoded noFault eq =>
    have hi : i = .csum := by
      subst eq
      by_contra hi
      exact hne (bodyOf_acc_of_ne_csum hi _)
    subst hi
    exact .inr ⟨unfaulted, rest, eq_of_decode_csum decoded ▸ inputs⟩

/-- Settles O47: of the four effects only a reset and fault entry touch STATUS. -/
theorem statusChangesOnlyByFaultAndReset : Obligations.StatusChangesOnlyByFaultAndReset := by
  intro s t h hne
  cases stepEffect_of_step h with
  | unchanged mem status acc => exact absurd status hne
  | reset rest inputs eq => exact .inl ⟨rest, inputs⟩
  | fault unfaulted c mem status acc => exact .inr ⟨unfaulted, c, status⟩
  | performed unfaulted w rest i inputs decoded noFault eq =>
    subst eq
    exact absurd (bodyOf_status_of_no_fault noFault _) hne

/-- Settles O48, by cases on the fault state: the frame of every command advances the index, and no body touches it or the inputs. -/
theorem everyCommandAdvancesTheIndex : Obligations.EveryCommandAdvancesTheIndex := by
  intro i s
  cases hf : s.faulted with
  | false =>
    obtain ⟨hindex, hinputs⟩ := bodyOf_index_inputs i s.quiet
    exact ⟨_, exec_unfaulted hf i, congrArg (· + 1) hindex, hinputs⟩
  | true =>
    obtain ⟨r, hr⟩ := exec_faulted_next hf i
    exact ⟨_, hr, rfl, rfl⟩

end Sys2Proof.Machine

/-! SUPPORT. Proofs for 20_memory.md: the addresses the packing commands compute, which bytes a command's effect depends on, and what a byte holds
along a sequence of commands. -/

namespace Sys2Proof.Machine

/-! The addresses of `csum`'s span. -/

theorem spanAddrs_map_toNat : spanAddrs.map BitVec.toNat = List.range 127 := by
  rw [spanAddrs, List.map_map]
  refine (List.map_congr_left fun k hk => ?_).trans (List.map_id _)
  have hk : k < 127 := List.mem_range.1 hk
  exact (BitVec.toNat_ofNat k 7).trans (Nat.mod_eq_of_lt (hk.trans (by decide)))

/-! A write decides what its own bytes hold, whatever the state was. -/

theorem State.writeByte_byteAt_same (s : State) (a : Addr) (v : Byte) : (s.writeByte a v).byteAt a = some v := by
  rw [State.writeByte_byteAt, if_pos rfl]

theorem State.writePair_byteAt_congr {a b : Addr} (h : b = a ∨ b = nextAddr a) (s t : State) (v w : Byte) :
    (t.writePair a v w).byteAt b = (s.writePair a v w).byteAt b := by
  obtain rfl | rfl := h <;> simp [State.writePair_byteAt]

theorem State.readCsr_congr {s t : State} (hstatus : t.status = s.status) (hacc : t.acc = s.acc) (csr : BitVec 8) :
    t.readCsr csr = s.readCsr csr := by
  rw [State.readCsr, State.readCsr, hstatus, hacc]

/-! A command's effect depends on the bytes it reads and on STATUS and ACC. -/

theorem bodyOf_status_congr (i : Instr) {s t : State} (h : t.status = s.status) :
    (bodyOf i t).status = (bodyOf i s).status := by
  cases hc : faultOf i with
  | some c => rw [bodyOf_of_fault hc, bodyOf_of_fault hc, State.raise_status, State.raise_status]
  | none => rw [bodyOf_status_of_no_fault hc, bodyOf_status_of_no_fault hc, h]

theorem bodyOf_csum_acc (t : State) : (bodyOf .csum t).acc = t.spanSum := by
  rw [bodyOf, State.writeByte_acc, State.setAcc_acc]

section ReadsAlike
variable {i : Instr} {s t : State} (hreads : ∀ a, readsFrom i a → t.readByte a = s.readByte a)
include hreads

theorem bodyOf_acc_congr (h : t.acc = s.acc) : (bodyOf i t).acc = (bodyOf i s).acc := by
  by_cases hi : i = .csum
  · subst hi
    rw [bodyOf_csum_acc, bodyOf_csum_acc, State.spanSum_congr hreads]
  · rw [bodyOf_acc_of_ne_csum hi, bodyOf_acc_of_ne_csum hi, h]

theorem bodyOf_resp_congr (hs : s.resp = none) (ht : t.resp = none) (hstatus : t.status = s.status) (hacc : t.acc = s.acc) :
    (bodyOf i t).resp = (bodyOf i s).resp := by
  by_cases hi : respondsWhenPerformed i
  · obtain ⟨addr, rfl⟩ | ⟨csr, rfl, hcsr⟩ := hi
    · exact congrArg some (hreads addr rfl)
    · have hcsr := (csrAssigned_iff csr).2 hcsr
      rw [bodyOf_rdsr hcsr, bodyOf_rdsr hcsr, State.readCsr_congr hstatus hacc, State.respond_resp, State.respond_resp]
  · rw [not_not.1 (mt (bodyOf_resp_ne_none_iff i hs).1 hi), not_not.1 (mt (bodyOf_resp_ne_none_iff i ht).1 hi)]

/-- What a performed command leaves in a byte it writes does not depend on what that byte held. -/
theorem bodyOf_byteAt_congr_of_writesTo (hc : faultOf i = none) {a : Addr} (hw : writesTo i a) :
    (bodyOf i t).byteAt a = (bodyOf i s).byteAt a := by
  cases i with
  | clr => exact (t.clearRecord_byteAt a).trans (s.clearRecord_byteAt a).symm
  | stb addr val =>
    obtain rfl : a = addr := hw
    exact (t.writeByte_byteAt_same a val).trans (s.writeByte_byteAt_same a val).symm
  | ldb | rdsr => exact hw.elim
  | stSet slot hsize vfreq aspect =>
    obtain ⟨hh, hv⟩ := (faultOf_stSet_eq_none_iff ..).1 hc
    rw [bodyOf_stSet hh hv, bodyOf_stSet hh hv]
    exact State.writePair_byteAt_congr ((slot_addr_iff slot a).1 hw) s t _ _
  | stUnset slot => exact State.writePair_byteAt_congr ((slot_addr_iff slot a).1 hw) s t _ _
  | mfg => exact State.writePair_byteAt_congr ((mfg_addr_iff a).1 hw) s t _ _
  | gamma g =>
    have hg := (faultOf_gamma_eq_none_iff g).1 hc
    obtain rfl : a = gammaAddr := BitVec.eq_of_toNat_eq hw
    rw [bodyOf_gamma hg, bodyOf_gamma hg, State.writeByte_byteAt_same, State.writeByte_byteAt_same]
  | csum =>
    obtain rfl : a = csumAddr := BitVec.eq_of_toNat_eq hw
    rw [bodyOf, bodyOf, State.writeByte_byteAt_same, State.writeByte_byteAt_same, State.spanSum_congr hreads]

theorem bodyOf_byteAt_congr {a : Addr} (h : t.byteAt a = s.byteAt a) : (bodyOf i t).byteAt a = (bodyOf i s).byteAt a := by
  cases hc : faultOf i with
  | some c => rw [bodyOf_of_fault hc, bodyOf_of_fault hc, State.raise_byteAt, State.raise_byteAt, h]
  | none =>
    by_cases hw : writesTo i a
    · exact bodyOf_byteAt_congr_of_writesTo hreads hc hw
    · rw [bodyOf_byteAt_of_not_writesTo hw, bodyOf_byteAt_of_not_writesTo hw, h]

end ReadsAlike

/-- A write to a byte the command does not read leaves what it reads, where that has been written (log 3). -/
theorem State.writeByte_readByte_of_not_readsFrom {i : Instr} {s : State} {b : Addr} (hb : ¬ readsFrom i b)
    (hwritten : ∀ a, readsFrom i a → s.byteAt a ≠ none) (v : Byte) (a : Addr) (ha : readsFrom i a) :
    (s.writeByte b v).readByte a = s.readByte a := by
  have hne : a ≠ b := by
    rintro rfl
    exact hb ha
  exact State.readByte_congr (hwritten a ha) (State.writeByte_byteAt_other hne s v)

/-- In the fault state no command reads or writes the record, so a write before it may as well come after (60_exceptions.md R146). -/
theorem exec_faulted_writeByte {s : State} (hf : s.faulted = true) (i : Instr) (b : Addr) (v : Byte) :
    ∃ t, exec i s = .next t ∧ exec i (s.writeByte b v) = .next (t.writeByte b v) := by
  rw [exec_faulted hf, exec_faulted (s := s.writeByte b v) hf]
  split
  · split <;> exact ⟨_, rfl, rfl⟩
  · exact ⟨_, rfl, rfl⟩

/-! Sequences of commands. -/

theorem execAll_cons_of_next {i : Instr} {s t : State} (h : exec i s = .next t) (rest : List Instr) :
    execAll (i :: rest) s = execAll rest t := by
  rw [execAll, h]

theorem execAll_append_of_next {l : List Instr} {s t : State} (h : execAll l s = .next t) (rest : List Instr) :
    execAll (l ++ rest) s = execAll rest t := by
  induction l generalizing s with
  | nil =>
    cases h
    rfl
  | cons i l ih =>
    obtain ⟨u, hu⟩ := exec_answers_next i s
    rw [execAll_cons_of_next hu] at h
    rw [List.cons_append, execAll_cons_of_next hu, ih h]

/-- What every command of a sequence keeps, the sequence keeps. -/
theorem execAll_keeps {P : State → Prop} {l : List Instr}
    (hkeeps : ∀ i ∈ l, ∀ s, P s → ∃ t, exec i s = .next t ∧ P t) {s : State} (hs : P s) :
    ∃ t, execAll l s = .next t ∧ P t := by
  induction l generalizing s with
  | nil => exact ⟨s, rfl, hs⟩
  | cons i l ih =>
    obtain ⟨u, hu, hPu⟩ := hkeeps i List.mem_cons_self s hs
    rw [execAll_cons_of_next hu]
    exact ih (fun j hj => hkeeps j (List.mem_cons_of_mem i hj)) hPu

/-- The block performs commands and holds `v` in byte `a`. -/
def State.performingHolds (a : Addr) (v : Byte) (s : State) : Prop := s.faulted = false ∧ s.byteAt a = some v

theorem exec_stb_performingHolds {s : State} (hf : s.faulted = false) (a : Addr) (v : Byte) :
    ∃ t, exec (.stb a v) s = .next t ∧ t.performingHolds a v :=
  ⟨_, exec_unfaulted hf _, hf, s.quiet.writeByte_byteAt_same a v⟩

/-- A performed command keeps FAULT 0 and every byte it does not write (20_memory.md R48). -/
theorem exec_keeps_performingHolds {i : Instr} {a : Addr} (hc : faultOf i = none) (hw : ¬ writesTo i a) {v : Byte} (s : State)
    (h : s.performingHolds a v) : ∃ t, exec i s = .next t ∧ t.performingHolds a v := by
  obtain ⟨hf, hbyte⟩ := h
  refine ⟨_, exec_unfaulted hf i, ?_, ?_⟩
  · exact (State.faulted_of_status (bodyOf_status_of_no_fault hc s.quiet)).trans hf
  · exact (bodyOf_byteAt_of_not_writesTo hw s.quiet).trans hbyte

theorem exec_ldb_of_performingHolds {s : State} {a : Addr} {v : Byte} (h : s.performingHolds a v) :
    ∃ t, exec (.ldb a) s = .next t ∧ t.resp = some v := by
  obtain ⟨hf, hbyte⟩ := h
  exact ⟨_, exec_unfaulted hf _, congrArg some (State.readByte_of_byteAt hbyte)⟩

/-! The obligations. -/

/-- Settles O29: a slot's base and the address after it are their formulas, which do not wrap; the other addresses are constants. -/
theorem addressesOfThePackingCommands : Obligations.AddressesOfThePackingCommands := by
  refine ⟨fun slot => ?_, rfl, rfl, spanAddrs_map_toNat, rfl⟩
  have hslot := slot.isLt
  rw [nextAddr_slotBase_toNat, slotBase_toNat]
  omega

/-- Settles O49: out of the fault state a command's body depends on what it reads only, which the write to `b` leaves; in the fault state the command
leaves the record alone. -/
theorem unreadByteDoesNotInterfere : Obligations.UnreadByteDoesNotInterfere := by
  intro i s b v hb hwritten
  cases hf : s.faulted with
  | false =>
    have hreads := State.writeByte_readByte_of_not_readsFrom (s := s.quiet) hb hwritten v
    refine ⟨_, _, exec_unfaulted hf i, exec_unfaulted (s := s.writeByte b v) hf i, bodyOf_status_congr i rfl,
      bodyOf_acc_congr hreads rfl, bodyOf_resp_congr hreads rfl rfl rfl rfl, fun a ha => ?_, fun _ hc hw => ?_⟩
    · exact bodyOf_byteAt_congr hreads (State.writeByte_byteAt_other ha s.quiet v)
    · exact bodyOf_byteAt_congr_of_writesTo hreads hc hw
  | true =>
    obtain ⟨t, ht, ht'⟩ := exec_faulted_writeByte hf i b v
    exact ⟨t, _, ht, ht', rfl, rfl, rfl, fun a ha => State.writeByte_byteAt_other ha t v, nofun⟩

/-- Settles O50: `stb` establishes that the byte holds the value and FAULT is 0, every command between keeps it, and `ldb` responds by it. -/
theorem storedByteIsReadBack : Obligations.StoredByteIsReadBack := by
  intro s addr val between hf hbetween
  obtain ⟨u, hu, hholds⟩ := exec_stb_performingHolds hf addr val
  obtain ⟨w, hw, hholds⟩ := execAll_keeps
    (fun i hi => exec_keeps_performingHolds (hbetween i hi).1 (hbetween i hi).2) hholds
  obtain ⟨t, ht, hresp⟩ := exec_ldb_of_performingHolds hholds
  refine ⟨t, ?_, hresp⟩
  rw [List.cons_append, execAll_cons_of_next hu, execAll_append_of_next hw, execAll_cons_of_next ht, execAll]

end Sys2Proof.Machine

/-! SUPPORT. Proofs for 30_encoding.md: operands at their places in a word, the rows of the opcode table read as fields, and the decoder and the
encoder undoing each other. -/

namespace Sys2Proof

open Laws
open Machine (fieldOf reservedWord rowOf_accepts_of_decode)

/-! An operand at its place in a word, and the field cut back out of it. -/

section Place
variable {m n : Nat}

theorem getLsbD_place (f : BitVec n) (lo k : Nat) :
    (place f lo).getLsbD k = (decide (k < 32) && !decide (k < lo) && f.getLsbD (k - lo)) := by
  rw [place, BitVec.getLsbD_shiftLeft, BitVec.getLsbD_setWidth]
  by_cases hk : k < 32
  · simp [hk, Nat.lt_of_le_of_lt (Nat.sub_le k lo) hk]
  · simp [hk]

theorem extractLsb'_place_same {lo : Nat} (h : lo + n ≤ 32) (f : BitVec n) : (place f lo).extractLsb' lo n = f := by
  ext k hk
  have hlt : lo + k < 32 := by omega
  rw [BitVec.getElem_extractLsb', getLsbD_place]
  simp [hlt, BitVec.getLsbD_eq_getElem hk]

/-- Fields that do not overlap do not disturb each other (30_encoding.md R70). -/
theorem extractLsb'_place_disjoint {lo lo' : Nat} (h : lo + n ≤ lo' ∨ lo' + m ≤ lo) (f : BitVec m) :
    (place f lo').extractLsb' lo n = 0#n := by
  ext k hk
  rcases h with below | above
  · have hlt : lo + k < lo' := by omega
    simp [getLsbD_place, hlt]
  · have hge : m ≤ lo + k - lo' := by omega
    simp [getLsbD_place, BitVec.getLsbD_of_ge f _ hge]

end Place

/-- The word whose bits `lo + len - 1` down to `lo` are 1 and no other. -/
def fieldMask (lo len : Nat) : CmdWord := place (BitVec.allOnes len) lo

theorem place_extractLsb' (w : CmdWord) (lo len : Nat) : place (w.extractLsb' lo len) lo = w &&& fieldMask lo len := by
  ext k hk
  rw [← BitVec.getLsbD_eq_getElem hk, ← BitVec.getLsbD_eq_getElem hk, BitVec.getLsbD_and, fieldMask, getLsbD_place, getLsbD_place,
    BitVec.getLsbD_extractLsb', BitVec.getLsbD_allOnes]
  by_cases h : k < lo
  · simp [h]
  · simp [h, hk, Nat.not_lt.1 h, Bool.and_comm]

theorem fieldOf_eq_toNat_extractLsb' (w : CmdWord) (lo len : Nat) : fieldOf w lo len = (w.extractLsb' lo len).toNat := by
  rw [fieldOf, BitVec.extractLsb'_toNat, Nat.shiftRight_eq_div_pow]

/-- Two words agree on the bits of a field exactly when the field spells the same number in both. -/
theorem and_fieldMask_eq_iff {lo len : Nat} (h : lo + len ≤ 32) (w p : CmdWord) :
    w &&& fieldMask lo len = p &&& fieldMask lo len ↔ fieldOf w lo len = fieldOf p lo len := by
  rw [← place_extractLsb', ← place_extractLsb', fieldOf_eq_toNat_extractLsb', fieldOf_eq_toNat_extractLsb', BitVec.toNat_inj]
  exact (Function.LeftInverse.injective (extractLsb'_place_same h)).eq_iff

theorem and_eq_and_iff_getLsbD (w p a : CmdWord) :
    w &&& a = p &&& a ↔ ∀ k, a.getLsbD k = true → w.getLsbD k = p.getLsbD k := by
  refine ⟨fun h k hk => ?_, fun h => BitVec.eq_of_getLsbD_eq fun k _ => ?_⟩
  · simpa [hk] using congrArg (·.getLsbD k) h
  · cases hk : a.getLsbD k with
    | false => simp [hk]
    | true => simp [hk, h k hk]

theorem and_or_eq_and_or_iff (w p a b : CmdWord) :
    w &&& (a ||| b) = p &&& (a ||| b) ↔ w &&& a = p &&& a ∧ w &&& b = p &&& b := by
  simp only [and_eq_and_iff_getLsbD, BitVec.getLsbD_or, Bool.or_eq_true, or_imp, forall_and]

/-! A row of the opcode table as the fields it fixes. -/

/-- The bits of several fields. -/
def fieldsMask : List (Nat × Nat) → CmdWord
  | [] => 0#32
  | (lo, len) :: fs => fieldMask lo len ||| fieldsMask fs

theorem and_fieldsMask_eq_iff {fs : List (Nat × Nat)} (hfit : ∀ f ∈ fs, f.1 + f.2 ≤ 32) (w p : CmdWord) :
    w &&& fieldsMask fs = p &&& fieldsMask fs ↔ ∀ f ∈ fs, fieldOf w f.1 f.2 = fieldOf p f.1 f.2 := by
  induction fs with
  | nil => simp [fieldsMask]
  | cons f fs ih =>
    obtain ⟨hf, hfs⟩ := List.forall_mem_cons.1 hfit
    rw [fieldsMask, and_or_eq_and_or_iff, and_fieldMask_eq_iff hf, ih hfs, List.forall_mem_cons]

/-- The number of a command's opcode (30_encoding.md R61). -/
def opNumber : Instr → Nat
  | .clr => 1
  | .stb .. => 2
  | .ldb _ => 3
  | .stSet .. => 4
  | .stUnset _ => 5
  | .mfg .. => 6
  | .gamma _ => 7
  | .csum => 8
  | .rdsr _ => 9

/-- The fields that are 0 in every word of a command, each as its lowest bit and its length: the reserved bits of its format (30_encoding.md R62 to
R67), and bits 7:1 of `rdsr`, which R67 fixes because `csr` is 0 or 1. -/
def zeroFields : Instr → List (Nat × Nat)
  | .clr | .csum => [(0, 28)]
  | .stb .. | .mfg .. => [(15, 13)]
  | .ldb _ => [(15, 13), (0, 8)]
  | .stSet .. => [(25, 3)]
  | .stUnset _ => [(25, 3), (0, 22)]
  | .gamma _ => [(16, 12)]
  | .rdsr _ => [(8, 20), (1, 7)]

theorem zeroFields_fit (i : Instr) : ∀ f ∈ zeroFields i, f.1 + f.2 ≤ 32 := by
  cases i <;> simp [zeroFields]

theorem rowOf_mem_opTable (i : Instr) : rowOf i ∈ opTable := by
  cases i <;> simp [rowOf, opTable]

/-- "every `mask` includes bits 31:28" (R69), and beside them the fields that are 0. -/
theorem rowOf_mask (i : Instr) : (rowOf i).mask = fieldsMask ((28, 4) :: zeroFields i) := by
  cases i <;> simp only [rowOf, zeroFields] <;> decide

/-- No row asks for a bit that its mask leaves out (R69). -/
theorem pattern_and_mask : ∀ r ∈ opTable, r.pattern &&& r.mask = r.pattern := by
  decide

theorem fieldOf_rowOf_pattern_op (i : Instr) : fieldOf (rowOf i).pattern 28 4 = opNumber i := by
  cases i <;> simp only [rowOf, opNumber] <;> decide

theorem fieldOf_rowOf_pattern_zeroFields (i : Instr) : ∀ f ∈ zeroFields i, fieldOf (rowOf i).pattern f.1 f.2 = 0 := by
  cases i <;> simp only [rowOf, zeroFields] <;> decide

/-- A row accepts a word exactly when the word has the row's opcode and 0 in the fields the row's format leaves no operand. -/
theorem rowOf_accepts_iff (i : Instr) (w : CmdWord) :
    (rowOf i).accepts w = true ↔ fieldOf w 28 4 = opNumber i ∧ ∀ f ∈ zeroFields i, fieldOf w f.1 f.2 = 0 := by
  have hfit : ∀ f ∈ (28, 4) :: zeroFields i, f.1 + f.2 ≤ 32 := List.forall_mem_cons.2 ⟨by decide, zeroFields_fit i⟩
  rw [OpRow.accepts_iff, ← pattern_and_mask _ (rowOf_mem_opTable i), rowOf_mask, and_fieldsMask_eq_iff hfit,
    List.forall_mem_cons, fieldOf_rowOf_pattern_op]
  exact and_congr_right' (forall₂_congr fun f hf => by rw [fieldOf_rowOf_pattern_zeroFields i f hf])

/-! The row a word is accepted by, and the command it decodes to. -/

/-- "at most one row matches" (30_encoding.md R69): a word has one opcode. -/
theorem row_eq_of_accepts {r q : OpRow} (hr : r ∈ opTable) (hq : q ∈ opTable) {w : CmdWord} (hrw : r.accepts w = true)
    (hqw : q.accepts w = true) : r = q :=
  opTable_opField_injective r hr q hq ((opField_of_accepts hr hrw).symm.trans (opField_of_accepts hq hqw))

/-- The command of the same row as `i` whose operands are cut from `w` at the bit positions of R62 to R67. -/
def Instr.cutFrom (w : CmdWord) : Instr → Instr
  | .clr => .clr
  | .stb _ _ => .stb (w.extractLsb' 8 7) (w.extractLsb' 0 8)
  | .ldb _ => .ldb (w.extractLsb' 8 7)
  | .stSet _ _ _ _ => .stSet (w.extractLsb' 22 3) (w.extractLsb' 0 12) (w.extractLsb' 12 8) (w.extractLsb' 20 2)
  | .stUnset _ => .stUnset (w.extractLsb' 22 3)
  | .mfg _ _ _ => .mfg (w.extractLsb' 10 5) (w.extractLsb' 5 5) (w.extractLsb' 0 5)
  | .gamma _ => .gamma (w.extractLsb' 0 16)
  | .csum => .csum
  | .rdsr _ => .rdsr (w.extractLsb' 0 8)

/-- A word its row accepts decodes to the row's command with the operands cut from the word (R69). -/
theorem decode_of_rowOf_accepts {i : Instr} {w : CmdWord} (h : (rowOf i).accepts w = true) : decode w = .ok (i.cutFrom w) := by
  have hrow : ∀ r ∈ opTable, r.accepts w = decide (r = rowOf i) := fun r hr => by
    rw [Bool.eq_iff_iff, decide_eq_true_eq]
    exact ⟨fun hr' => row_eq_of_accepts hr (rowOf_mem_opTable i) hr' h, fun he => he ▸ h⟩
  simp (disch := decide) only [decode, hrow]
  cases i <;> rfl

theorem cutFrom_eq_of_decode {w : CmdWord} {i : Instr} (h : decode w = .ok i) : i.cutFrom w = i :=
  Except.ok.inj ((decode_of_rowOf_accepts (rowOf_accepts_of_decode h)).symm.trans h)

/-- A command for every row, in the table's order. -/
def oneOfEach : List Instr := [.clr, .stb 0 0, .ldb 0, .stSet 0 0 0 0, .stUnset 0, .mfg 0 0 0, .gamma 0, .csum, .rdsr 0]

theorem opTable_eq_map_rowOf : opTable = oneOfEach.map rowOf := rfl

theorem decode_ok_iff_row_accepts (w : CmdWord) : (∃ i, decode w = .ok i) ↔ ∃ r ∈ opTable, r.accepts w = true := by
  refine ⟨fun ⟨i, h⟩ => ⟨_, rowOf_mem_opTable i, rowOf_accepts_of_decode h⟩, fun ⟨r, hr, h⟩ => ?_⟩
  rw [opTable_eq_map_rowOf] at hr
  obtain ⟨i, -, rfl⟩ := List.mem_map.1 hr
  exact ⟨_, decode_of_rowOf_accepts h⟩

theorem decode_error_iff_not_ok (w : CmdWord) : (∃ r, decode w = .error r) ↔ ¬ ∃ i, decode w = .ok i := by
  cases decode w <;> simp

/-! The encoder puts every operand where the decoder cuts it. -/

theorem rowOf_accepts_encode {i : Instr} (h : i.wf = true) : (rowOf i).accepts (encode i) = true := by
  cases i with
  | clr => exact EncodesInRow.clr h
  | stb addr val => exact EncodesInRow.stb addr val h
  | ldb addr => exact EncodesInRow.ldb addr h
  | stSet slot hsize vfreq aspect => exact EncodesInRow.stSet slot hsize vfreq aspect h
  | stUnset slot => exact EncodesInRow.stUnset slot h
  | mfg l1 l2 l3 => exact EncodesInRow.mfg l1 l2 l3 h
  | gamma g => exact EncodesInRow.gamma g h
  | csum => exact EncodesInRow.csum h
  | rdsr csr => exact EncodesInRow.rdsr csr h

theorem cutFrom_encode (i : Instr) : i.cutFrom (encode i) = i := by
  cases i <;> simp (disch := omega) [Instr.cutFrom, encode, BitVec.extractLsb'_or, extractLsb'_place_same, extractLsb'_place_disjoint]

/-- The fields in which the encoder places the command's operands, each as its lowest bit and its length (R62 to R67). -/
def operandFields : Instr → List (Nat × Nat)
  | .clr | .csum => []
  | .stb .. => [(8, 7), (0, 8)]
  | .ldb _ => [(8, 7)]
  | .stSet .. => [(22, 3), (20, 2), (12, 8), (0, 12)]
  | .stUnset _ => [(22, 3)]
  | .mfg .. => [(10, 5), (5, 5), (0, 5)]
  | .gamma _ => [(0, 16)]
  | .rdsr _ => [(0, 8)]

theorem encode_cutFrom (i : Instr) (w : CmdWord) :
    encode (i.cutFrom w) = (rowOf i).pattern ||| (w &&& fieldsMask (operandFields i)) := by
  cases i <;>
    simp [encode, Instr.cutFrom, rowOf, rowClr, rowStb, rowLdb, rowStSet, rowStUnset, rowMfg, rowGamma, rowCsum, rowRdsr, operandFields,
      fieldsMask, place_extractLsb', BitVec.and_or_distrib_left, BitVec.or_assoc]

/-- The row's mask and the operands leave no bit of the word out (R60). -/
theorem rowOf_mask_or_operandFields (i : Instr) : (rowOf i).mask ||| fieldsMask (operandFields i) = BitVec.allOnes 32 := by
  cases i <;> simp only [rowOf, operandFields] <;> decide

theorem encode_cutFrom_of_accepts {i : Instr} {w : CmdWord} (h : (rowOf i).accepts w = true) : encode (i.cutFrom w) = w := by
  rw [encode_cutFrom, ← (OpRow.accepts_iff _ _).1 h, ← BitVec.and_or_distrib_left, rowOf_mask_or_operandFields, BitVec.and_allOnes]

/-! The words of `rdsr`, and the reserved words. -/

/-- `csr` is legal exactly when its bits 7:1 are 0, as the mask of `rdsr` has it (R67). -/
theorem fieldOf_csr_lt_two_iff (w : CmdWord) : fieldOf w 0 8 < 2 ↔ fieldOf w 1 7 = 0 := by
  simp only [fieldOf]
  omega

theorem wf_of_decode {w : CmdWord} {i : Instr} (h : decode w = .ok i) : i.wf = true := by
  cases i with
  | rdsr csr =>
    obtain ⟨-, hzero⟩ := (rowOf_accepts_iff _ w).1 (rowOf_accepts_of_decode h)
    have hlow : fieldOf w 0 8 < 2 := (fieldOf_csr_lt_two_iff w).2 (hzero (1, 7) (by simp [zeroFields]))
    have hcsr : w.extractLsb' 0 8 = csr := Instr.rdsr.inj (cutFrom_eq_of_decode h)
    rw [fieldOf_eq_toNat_extractLsb', hcsr] at hlow
    exact decide_eq_true hlow
  | clr | stb | ldb | stSet | stUnset | mfg | gamma | csum => rfl

/-- Opcode by opcode, the fields a row wants 0 are those in which R68 forbids a 1. -/
theorem row_accepts_iff_not_reservedWord (w : CmdWord) : (∃ r ∈ opTable, r.accepts w = true) ↔ ¬ reservedWord w := by
  have hop : fieldOf w 28 4 < 16 := Nat.mod_lt _ (by decide)
  simp only [opTable_eq_map_rowOf, oneOfEach, List.map_cons, List.map_nil, List.exists_mem_cons_iff, rowOf_accepts_iff, opNumber, zeroFields,
    List.forall_mem_cons, ← fieldOf_csr_lt_two_iff, reservedWord]
  generalize fieldOf w 28 4 = op at hop ⊢
  interval_cases op <;> simp

/-! The obligations. -/

/-- Settles O1: the command's own row accepts its word, and the operands cut from the word are those the encoder placed there. -/
theorem decodeOfEncode : Obligations.DecodeOfEncode := by
  intro i hwf
  rw [decode_of_rowOf_accepts (rowOf_accepts_encode hwf), cutFrom_encode]

/-- Settles O2: the row and the operands' fields together cover the word. -/
theorem encodeOfDecode : Obligations.EncodeOfDecode := by
  intro w i h
  refine ⟨wf_of_decode h, ?_⟩
  calc encode i = encode (i.cutFrom w) := by rw [cutFrom_eq_of_decode h]
    _ = w := encode_cutFrom_of_accepts (rowOf_accepts_of_decode h)

/-- Settles O3: a word is rejected when no row accepts it, and a row accepts the words that are not reserved. -/
theorem rejectedWordsAreTheReservedWords : Obligations.RejectedWordsAreTheReservedWords := by
  intro w
  rw [decode_error_iff_not_ok, decode_ok_iff_row_accepts, row_accepts_iff_not_reservedWord, not_not]

/-- Settles O4: the opcode tells the row, and the rows are those of the commands. -/
theorem atMostOneRowMatches : Obligations.AtMostOneRowMatches :=
  ⟨fun _ _ hr _ hq => row_eq_of_accepts hr hq, decode_ok_iff_row_accepts⟩

/-- Settles O5, by running the decoder on the nine words. -/
theorem sampleWordsDecode : Obligations.SampleWordsDecode := by
  unfold Obligations.SampleWordsDecode
  decide

end Sys2Proof

/-! SUPPORT. Proofs for 40_record_access.md: the full effect of `clr`, `stb`, `ldb` and `rdsr`. -/

namespace Sys2Proof.Machine

/-! What a read of STATUS gives (10_state.md R21). -/

/-- Bits 7:4 read as 0 and bits 3:0 as they are held. -/
theorem readStatus_toNat (w : Byte) : (readStatus w).toNat = w.toNat % 16 :=
  (BitVec.toNat_and w 0x0F#8).trans (Nat.and_two_pow_sub_one_eq_mod w.toNat 4)

/-- FAULT is 1 in the four legal values that a fault writes. -/
theorem State.status_eq_zero_of_legal {s : State} (hlegal : statusLegal s.status = true) (hf : s.faulted = false) :
    s.status = 0x00#8 := by
  rw [State.faulted] at hf
  simp only [statusLegal, Bool.or_eq_true, beq_iff_eq] at hlegal
  obtain (((h | h) | h) | h) | h := hlegal
  · exact h
  all_goals
    rw [h] at hf
    exact absurd hf (by decide)

theorem State.readCsr_status (s : State) : s.readCsr 0#8 = readStatus s.status := rfl

theorem State.readCsr_acc (s : State) : s.readCsr 1#8 = s.acc := rfl

/-! The commands, each as the operations it is made of. -/

section Unfaulted
variable {s : State} (hf : s.faulted = false)
include hf

theorem exec_clr : exec .clr s = .next s.quiet.clearRecord.advance := exec_unfaulted hf _

theorem exec_stb (addr : BitVec 7) (val : BitVec 8) : exec (.stb addr val) s = .next (s.quiet.writeByte addr val).advance :=
  exec_unfaulted hf _

theorem exec_ldb (addr : BitVec 7) : exec (.ldb addr) s = .next (s.quiet.respond (s.readByte addr)).advance :=
  exec_unfaulted hf _

end Unfaulted

/-- A well-formed `rdsr` is performed in and out of the fault state alike (60_exceptions.md R146). -/
theorem exec_rdsr {csr : BitVec 8} (h : csrAssigned csr = true) (s : State) :
    exec (.rdsr csr) s = .next (s.quiet.respond (s.readCsr csr)).advance := by
  cases hf : s.faulted with
  | false => rw [exec_unfaulted hf, bodyOf_rdsr h, State.quiet_readCsr]
  | true => exact (exec_faulted hf _).trans (if_pos h)

/-! The obligations. -/

/-- Settles O23: `clearRecord` is the fold of 128 byte writes, which its own laws sum up. -/
theorem clrZeroesTheRecord : Obligations.ClrZeroesTheRecord := by
  intro s hf
  refine ⟨_, exec_clr hf, fun a => ?_, ?_⟩
  · rw [State.advance_byteAt, State.clearRecord_byteAt]
  · simp

/-- Settles O24: one `writeByte`, read back at its own address and at another. -/
theorem stbStoresOneByte : Obligations.StbStoresOneByte := by
  intro s addr val hf
  refine ⟨_, exec_stb hf addr val, ?_, fun a ha => ?_, ?_⟩
  · rw [State.advance_byteAt, State.writeByte_byteAt_same]
  · rw [State.advance_byteAt, State.writeByte_byteAt_other ha, State.quiet_byteAt]
  · simp

/-- Settles O25: the response is `readByte`, which is the byte held where one has been written. -/
theorem ldbRespondsWithTheByte : Obligations.LdbRespondsWithTheByte := by
  intro s addr hf
  refine ⟨_, s.readByte addr, exec_ldb hf addr, ?_, fun v hv => State.readByte_of_byteAt hv, fun a => ?_, ?_⟩
  · rw [State.advance_resp, State.respond_resp]
  · simp
  · simp

/-- Settles O26: the response is `readStatus`, STATUS modulo 16, which hides nothing of a legal STATUS. -/
theorem rdsrRespondsWithStatus : Obligations.RdsrRespondsWithStatus := by
  intro s
  refine ⟨_, readStatus s.status, exec_rdsr (csr := 0#8) rfl s, ?_, readStatus_toNat s.status, readStatus_of_legal,
    fun hlegal hf => ?_, fun a => ?_, ?_⟩
  · rw [State.advance_resp, State.respond_resp, State.readCsr_status]
  · exact (readStatus_of_legal hlegal).trans (State.status_eq_zero_of_legal hlegal hf)
  · simp
  · simp

/-- Settles O27: the other status register, by the same equation of `rdsr`. -/
theorem rdsrRespondsWithAcc : Obligations.RdsrRespondsWithAcc := by
  intro s
  refine ⟨_, exec_rdsr (csr := 1#8) rfl s, ?_, fun a => ?_, ?_⟩
  · rw [State.advance_resp, State.respond_resp, State.readCsr_acc]
  · simp
  · simp

end Sys2Proof.Machine

/-! SUPPORT. Proofs for 41_standard_timing.md: the two bytes a command packs side by side, what `st.set` packs into them, and its inverse. -/

namespace Sys2Proof.Machine

/-! A command performed by writing two bytes side by side. -/

theorem nextAddr_ne (a : Addr) : nextAddr a ≠ a := by
  simp [nextAddr]

/-- The state after a command, not in the fault state, that writes `v` at `a` and `w` at the address after it (20_memory.md R43). -/
def State.performPair (s : State) (a : Addr) (v w : Byte) : State := (s.quiet.writePair a v w).advance

section PerformPair
variable (s : State) (a : Addr) (v w : Byte)

theorem State.performPair_byteAt_base : (s.performPair a v w).byteAt a = some v := by
  rw [State.performPair, State.advance_byteAt, State.writePair_byteAt, if_neg (nextAddr_ne a).symm, if_pos rfl]

theorem State.performPair_byteAt_next : (s.performPair a v w).byteAt (nextAddr a) = some w := by
  rw [State.performPair, State.advance_byteAt, State.writePair_byteAt, if_pos rfl]

theorem State.performPair_faulted : (s.performPair a v w).faulted = s.faulted := rfl

/-- What the command leaves: every other byte, STATUS, ACC and the inputs; no response is given and the index advances. -/
theorem State.performPair_frame :
    (∀ b, b ≠ a → b ≠ nextAddr a → (s.performPair a v w).byteAt b = s.byteAt b) ∧
      (s.performPair a v w).status = s.status ∧ (s.performPair a v w).acc = s.acc ∧ (s.performPair a v w).resp = none ∧
      (s.performPair a v w).inputs = s.inputs ∧ (s.performPair a v w).index = s.index + 1 := by
  refine ⟨fun b hbase hnext => ?_, rfl, rfl, rfl, rfl, rfl⟩
  rw [State.performPair, State.advance_byteAt, State.writePair_byteAt_other (not_or.2 ⟨hbase, hnext⟩), State.quiet_byteAt]

end PerformPair

/-! The packed bytes, and the operands read back from them (R92, R95). -/

/-- The low 3 bits of the size do not show in byte 0 (R94). -/
theorem stByte0_congr {hsize hsize' : BitVec 12} (h : hsize.toNat / 8 = hsize'.toNat / 8) : stByte0 hsize = stByte0 hsize' := by
  rw [stByte0, stByte0, h]

/-- The sizes just above the range would pack as its last one, 2288 (R94). -/
theorem stByte0_of_over_range {hsize : BitVec 12} (hmin : 2289 ≤ hsize.toNat) (hmax : hsize.toNat ≤ 2295) :
    stByte0 hsize = 0xFF#8 := by
  have hdiv : hsize.toNat / 8 = (2288#12).toNat / 8 := by
    rw [show (2288#12).toNat = 2288 from rfl]
    omega
  exact (stByte0_congr hdiv).trans rfl

/-- R95: byte 0 gives the size but for its low 3 bits. -/
theorem stByte0_unpacks {hsize : BitVec 12} (h : hsizeLegal hsize = true) :
    ((stByte0 hsize).toNat + 31) * 8 = hsize.toNat - hsize.toNat % 8 := by
  rw [stByte0_toNat h]
  rw [hsizeLegal_iff] at h
  omega

theorem stByte1_toNat_mod {vfreq : BitVec 8} (h : vfreqLegal vfreq = true) (aspect : BitVec 2) :
    (stByte1 vfreq aspect).toNat % 64 + 60 = vfreq.toNat := by
  rw [stByte1_toNat h]
  rw [vfreqLegal_iff] at h
  omega

theorem stByte1_toNat_div {vfreq : BitVec 8} (h : vfreqLegal vfreq = true) (aspect : BitVec 2) :
    (stByte1 vfreq aspect).toNat / 64 = aspect.toNat := by
  rw [stByte1_toNat h]
  rw [vfreqLegal_iff] at h
  omega

/-- R95: bits 5:0 of byte 1 give the rate. -/
theorem stByte1_unpacks_vfreq {vfreq : BitVec 8} (h : vfreqLegal vfreq = true) (aspect : BitVec 2) :
    ((stByte1 vfreq aspect).extractLsb' 0 6).toNat + 60 = vfreq.toNat := by
  rw [BitVec.extractLsb'_toNat, Nat.shiftRight_zero]
  exact stByte1_toNat_mod h aspect

/-- R95: bits 7:6 of byte 1 are the aspect. -/
theorem stByte1_unpacks_aspect {vfreq : BitVec 8} (h : vfreqLegal vfreq = true) (aspect : BitVec 2) :
    (stByte1 vfreq aspect).extractLsb' 6 2 = aspect := by
  apply BitVec.eq_of_toNat_eq
  calc ((stByte1 vfreq aspect).extractLsb' 6 2).toNat = (stByte1 vfreq aspect).toNat / 64 % 4 := by
        rw [BitVec.extractLsb'_toNat, Nat.shiftRight_eq_div_pow]
    _ = aspect.toNat := by rw [stByte1_toNat_div h, Nat.mod_eq_of_lt aspect.isLt]

/-- R92: every byte is packed from its own bits 5:0 as the offset of a rate and its bits 7:6 as the aspect. -/
theorem exists_stByte1_eq (b : Byte) : ∃ (vfreq : BitVec 8) (aspect : BitVec 2), vfreqLegal vfreq = true ∧ stByte1 vfreq aspect = b := by
  have hb := b.isLt
  have hrate : (BitVec.ofNat 8 (60 + b.toNat % 64)).toNat = 60 + b.toNat % 64 := Nat.mod_eq_of_lt (by omega)
  have haspect : (BitVec.ofNat 2 (b.toNat / 64)).toNat = b.toNat / 64 := Nat.mod_eq_of_lt (by omega)
  have hlegal : vfreqLegal (BitVec.ofNat 8 (60 + b.toNat % 64)) = true := by
    rw [vfreqLegal_iff, hrate]
    omega
  refine ⟨_, BitVec.ofNat 2 (b.toNat / 64), hlegal, BitVec.eq_of_toNat_eq ?_⟩
  rw [stByte1_toNat hlegal, hrate, haspect]
  omega

/-! The operands that pack as the sentinel (R93). -/

theorem stByte0_eq_sentinel_iff {hsize : BitVec 12} (h : hsizeLegal hsize = true) : stByte0 hsize = 0x01#8 ↔ hsize.toNat ≤ 263 := by
  rw [← BitVec.toNat_inj, stByte0_toNat h, show (0x01#8).toNat = 1 from rfl]
  rw [hsizeLegal_iff] at h
  omega

theorem stByte1_eq_sentinel_iff {vfreq : BitVec 8} (h : vfreqLegal vfreq = true) (aspect : BitVec 2) :
    stByte1 vfreq aspect = 0x01#8 ↔ vfreq.toNat = 61 ∧ aspect = 0#2 := by
  rw [← BitVec.toNat_inj, ← BitVec.toNat_inj, stByte1_toNat h, show (0x01#8).toNat = 1 from rfl, show (0#2).toNat = 0 from rfl]
  rw [vfreqLegal_iff] at h
  omega

/-! The commands, each as the operations it is made of. -/

section Unfaulted
variable {s : State} (hf : s.faulted = false)
include hf

/-- `st.set` with legal operands is its two byte writes (R90). -/
theorem exec_stSet {hsize : BitVec 12} {vfreq : BitVec 8} (hh : hsizeLegal hsize = true) (hv : vfreqLegal vfreq = true)
    (slot : BitVec 3) (aspect : BitVec 2) :
    exec (.stSet slot hsize vfreq aspect) s = .next (s.performPair (slotBase slot) (stByte0 hsize) (stByte1 vfreq aspect)) := by
  rw [exec_unfaulted hf, bodyOf_stSet hh hv, State.performPair]

theorem exec_stUnset (slot : BitVec 3) :
    exec (.stUnset slot) s = .next (s.performPair (slotBase slot) stSentinel stSentinel) :=
  exec_unfaulted hf _

/-- A command that meets a fault condition does nothing but raise it (60_exceptions.md R141). -/
theorem exec_of_fault {i : Instr} {c : Cause} (hc : faultOf i = some c) : exec i s = .next (s.quiet.raise c).advance := by
  rw [exec_unfaulted hf, bodyOf_of_fault hc]

end Unfaulted

/-- `st.set` sees no more of the size than whether it is in range and the byte it packs as. -/
theorem exec_stSet_congr {hsize hsize' : BitVec 12} (hlegal : hsizeLegal hsize = hsizeLegal hsize') (hbyte : stByte0 hsize = stByte0 hsize')
    (slot : BitVec 3) (vfreq : BitVec 8) (aspect : BitVec 2) (s : State) :
    exec (.stSet slot hsize vfreq aspect) s = exec (.stSet slot hsize' vfreq aspect) s := by
  rw [exec, exec, execStSet, execStSet, hlegal, hbyte]

/-! The obligations. -/

/-- Settles O30: legal operands make `st.set` a `performPair`, whose bytes are the packed ones as integers. -/
theorem stSetPacksItsSlot : Obligations.StSetPacksItsSlot := by
  intro s slot hsize vfreq aspect hf hmin hmax vmin vmax
  have hh := (hsizeLegal_iff hsize).2 ⟨hmin, hmax⟩
  have hv := (vfreqLegal_iff vfreq).2 ⟨vmin, vmax⟩
  exact ⟨_, _, _, exec_stSet hf hh hv slot aspect, s.performPair_byteAt_base _ _ _, stByte0_toNat hh,
    s.performPair_byteAt_next _ _ _, stByte1_toNat hv aspect, s.performPair_frame _ _ _⟩

/-- Settles O32: the packed bytes as integers, and each byte as the byte 1 of the rate and the aspect in its bits. -/
theorem packedTimingBytesInRange : Obligations.PackedTimingBytesInRange := by
  refine ⟨fun hsize hmin hmax => ?_, fun vfreq aspect vmin vmax => ?_, fun b => ?_⟩
  · rw [stByte0_toNat ((hsizeLegal_iff hsize).2 ⟨hmin, hmax⟩)]
    omega
  · have hv := (vfreqLegal_iff vfreq).2 ⟨vmin, vmax⟩
    exact ⟨stByte1_toNat_mod hv aspect, stByte1_toNat_div hv aspect⟩
  · obtain ⟨vfreq, aspect, hv, hb⟩ := exists_stByte1_eq b
    obtain ⟨vmin, vmax⟩ := (vfreqLegal_iff vfreq).1 hv
    exact ⟨vfreq, aspect, vmin, vmax, hb⟩

/-- Settles O33: the slot holds the two packed bytes, and each is 0x01 for its own operands only. -/
theorem sentinelCollidesWithOneTriple : Obligations.SentinelCollidesWithOneTriple := by
  intro s slot hsize vfreq aspect hf hmin hmax vmin vmax
  have hh := (hsizeLegal_iff hsize).2 ⟨hmin, hmax⟩
  have hv := (vfreqLegal_iff vfreq).2 ⟨vmin, vmax⟩
  refine ⟨_, exec_stSet hf hh hv slot aspect, (s.performPair_faulted _ _ _).trans hf, ?_⟩
  rw [State.performPair_byteAt_base, State.performPair_byteAt_next, Option.some_inj, Option.some_inj, stByte0_eq_sentinel_iff hh,
    stByte1_eq_sentinel_iff hv]

/-- Settles O34: dropping the low 3 bits of a size in range keeps it in range and keeps its quotient by 8; a size over 2288 faults, whatever it
would pack as. -/
theorem stSetDropsTheLowThreeBits : Obligations.StSetDropsTheLowThreeBits := by
  refine ⟨fun s slot hsize lossy vfreq aspect hmin hmax hlossy => ?_, fun s slot hsize vfreq aspect hf hmin hmax vmin vmax => ?_, rfl, rfl,
    fun s slot hsize vfreq aspect hf hmin hmax => ?_⟩
  · have hh := (hsizeLegal_iff hsize).2 ⟨hmin, hmax⟩
    have hl := (hsizeLegal_iff lossy).2 (by omega)
    exact exec_stSet_congr (hh.trans hl.symm) (stByte0_congr (by omega)) slot vfreq aspect s
  · have hh := (hsizeLegal_iff hsize).2 ⟨hmin, hmax⟩
    have hv := (vfreqLegal_iff vfreq).2 ⟨vmin, vmax⟩
    exact ⟨_, exec_stSet hf hh hv slot aspect, (s.performPair_faulted _ _ _).trans hf⟩
  · have hc : faultOf (.stSet slot hsize vfreq aspect) = some .hsizeRange := if_pos (by omega)
    exact ⟨stByte0_of_over_range hmin hmax, _, exec_of_fault hf hc, s.quiet.raise_faulted .hsizeRange⟩

/-- Settles O35: the slot holds the two packed bytes, and each unpacks to its operands. -/
theorem timingUnpacks : Obligations.TimingUnpacks := by
  intro s slot hsize vfreq aspect hf hmin hmax vmin vmax
  have hh := (hsizeLegal_iff hsize).2 ⟨hmin, hmax⟩
  have hv := (vfreqLegal_iff vfreq).2 ⟨vmin, vmax⟩
  exact ⟨_, _, _, exec_stSet hf hh hv slot aspect, s.performPair_byteAt_base _ _ _, s.performPair_byteAt_next _ _ _,
    stByte0_unpacks hh, stByte1_unpacks_vfreq hv aspect, stByte1_unpacks_aspect hv aspect⟩

/-- Settles O31: `st.unset` is the `performPair` of two sentinels. -/
theorem stUnsetWritesTheSentinel : Obligations.StUnsetWritesTheSentinel := by
  intro s slot hf
  exact ⟨_, exec_stUnset hf slot, s.performPair_byteAt_base _ _ _, s.performPair_byteAt_next _ _ _, s.performPair_frame _ _ _⟩

end Sys2Proof.Machine

/-! SUPPORT. Proofs for 42_vendor_gamma.md: the manufacturer code's two bytes and their inverse, and the range and rounding of `gamma`. -/

namespace Sys2Proof.Machine

/-! The manufacturer code's two bytes, and the letters read back from them (R100, R102). -/

theorem hiByte_mfgValue_toNat (l1 l2 l3 : BitVec 5) : (hiByte (mfgValue l1 l2 l3)).toNat = 4 * l1.toNat + l2.toNat / 8 := by
  have := l3.isLt
  rw [hiByte_toNat, mfgValue_toNat]
  omega

theorem loByte_mfgValue_toNat (l1 l2 l3 : BitVec 5) : (loByte (mfgValue l1 l2 l3)).toNat = 32 * (l2.toNat % 8) + l3.toNat := by
  have := l3.isLt
  rw [loByte_toNat, mfgValue_toNat]
  omega

/-- Byte 8 is below 128: its bit 7 is the one the letters leave unused (R100; log 9). -/
theorem hiByte_mfgValue_getLsbD_seven (l1 l2 l3 : BitVec 5) : (hiByte (mfgValue l1 l2 l3)).getLsbD 7 = false := by
  refine Nat.testBit_lt_two_pow ?_
  have := l1.isLt
  have := l2.isLt
  rw [hiByte_mfgValue_toNat]
  omega

/-- Byte 8 followed by byte 9 is the value itself. -/
theorem hiByte_append_loByte (v : BitVec 16) : hiByte v ++ loByte v = v :=
  (BitVec.extractLsb'_append_extractLsb'_eq_extractLsb' (start₁ := 0) (start₂ := 8) rfl).trans BitVec.extractLsb'_eq_self

/-- R102: the three letters are bits 14:10, 9:5 and 4:0. -/
theorem mfgValue_unpacks (l1 l2 l3 : BitVec 5) :
    (mfgValue l1 l2 l3).extractLsb' 10 5 = l1 ∧ (mfgValue l1 l2 l3).extractLsb' 5 5 = l2 ∧ (mfgValue l1 l2 l3).extractLsb' 0 5 = l3 := by
  have := l1.isLt
  have := l2.isLt
  have := l3.isLt
  simp only [← BitVec.toNat_inj, BitVec.extractLsb'_toNat, Nat.shiftRight_eq_div_pow, mfgValue_toNat]
  omega

/-! The rounded hundredths and the byte they give (R101, R103, R104). -/

theorem gammaByte_toNat_add {g : BitVec 16} (h : gammaLegal g = true) : (gammaByte g).toNat + 100 = (g.toNat + 5) / 10 := by
  rw [gammaByte_toNat h]
  rw [gammaLegal_iff] at h
  omega

/-- R104: the packed byte is at most 254, and it is 0x00 and 0xFE for the operands at the ends of the range. -/
theorem gammaByte_edges {g : BitVec 16} (h : gammaLegal g = true) :
    (gammaByte g).toNat ≤ 254 ∧ (g.toNat ≤ 1004 → gammaByte g = 0x00#8) ∧ (3535 ≤ g.toNat → gammaByte g = 0xFE#8) := by
  have hbyte := gammaByte_toNat h
  rw [gammaLegal_iff_thousandths] at h
  rw [← BitVec.toNat_inj, ← BitVec.toNat_inj, show (0x00#8).toNat = 0 from rfl, show (0xFE#8).toNat = 254 from rfl]
  omega

/-! The commands, each as the operations it is made of. -/

section Unfaulted
variable {s : State} (hf : s.faulted = false)
include hf

theorem exec_mfg (l1 l2 l3 : BitVec 5) :
    exec (.mfg l1 l2 l3) s = .next (s.performPair mfgAddr (hiByte (mfgValue l1 l2 l3)) (loByte (mfgValue l1 l2 l3))) :=
  exec_unfaulted hf _

/-- `gamma` with a legal operand does what `stb` of its byte to address 23 does (R101). -/
theorem exec_gamma_eq_exec_stb {g : BitVec 16} (h : gammaLegal g = true) :
    exec (.gamma g) s = exec (.stb gammaAddr (gammaByte g)) s := by
  rw [exec_unfaulted hf, bodyOf_gamma h, exec_stb hf]

end Unfaulted

/-! The obligations. -/

/-- Settles O36: `mfg` is the `performPair` of its value's two bytes, which are known as integers. -/
theorem mfgPacksThreeLetters : Obligations.MfgPacksThreeLetters := by
  intro s l1 l2 l3 hf
  exact ⟨_, _, _, exec_mfg hf l1 l2 l3, s.performPair_byteAt_base _ _ _, s.performPair_byteAt_next _ _ _, rfl, rfl,
    hiByte_mfgValue_toNat l1 l2 l3, loByte_mfgValue_toNat l1 l2 l3, s.performPair_frame _ _ _⟩

/-- Settles O37: the two bytes side by side are the value again, and its fields are the letters. -/
theorem mfgUnpacksForEveryTriple : Obligations.MfgUnpacksForEveryTriple := by
  intro s l1 l2 l3 hf
  refine ⟨_, _, _, exec_mfg hf l1 l2 l3, (s.performPair_faulted _ _ _).trans hf, s.performPair_byteAt_base mfgAddr _ _,
    s.performPair_byteAt_next mfgAddr _ _, hiByte_mfgValue_getLsbD_seven l1 l2 l3, ?_⟩
  rw [hiByte_append_loByte]
  exact mfgValue_unpacks l1 l2 l3

/-- Settles O38: a legal `gamma` is a `stb` to address 23, whose effect O24 gives. -/
theorem gammaPacksItsByte : Obligations.GammaPacksItsByte := by
  intro s g hf hmin hmax
  have hlegal := (gammaLegal_iff g).2 ⟨hmin, hmax⟩
  obtain ⟨t, hexec, hbyte, hframe⟩ := stbStoresOneByte s gammaAddr (gammaByte g) hf
  exact ⟨t, _, (exec_gamma_eq_exec_stb hf hlegal).trans hexec, hbyte, rfl, gammaByte_toNat_add hlegal, hframe⟩

/-- Settles O39: outside 995 to 3544 `gamma` only raises its fault; inside, it is a `stb` to address 23. -/
theorem gammaRangeEdges : Obligations.GammaRangeEdges := by
  refine ⟨fun s g hf => ?_, fun s hf => ?_⟩
  · split
    next hout =>
      have hc : faultOf (.gamma g) = some .gammaRange := if_pos (by omega)
      refine ⟨_, exec_of_fault hf hc, rfl, ?_⟩
      rw [State.advance_byteAt, State.raise_byteAt, State.quiet_byteAt]
    next hin =>
      have hlegal := (gammaLegal_iff_thousandths g).2 (by omega)
      obtain ⟨t, hexec, hbyte, -, hstatus, -⟩ := stbStoresOneByte s gammaAddr (gammaByte g) hf
      exact ⟨t, (exec_gamma_eq_exec_stb hf hlegal).trans hexec, hstatus, _, hbyte, gammaByte_edges hlegal⟩
  · obtain ⟨t, hexec, hbyte, -⟩ := stbStoresOneByte s 23#7 0xFF#8 hf
    exact ⟨t, hexec, hbyte⟩

/-- Settles O40: the hundredths are the quotient of `g + 5` by 10, so the three clauses are about its remainder. -/
theorem gammaRoundsToNearestTiesUp : Obligations.GammaRoundsToNearestTiesUp := by
  intro g
  rw [gammaHundredths]
  omega

end Sys2Proof.Machine

/-! SUPPORT. Proofs for 43_checksum.md: what `csum` leaves in ACC and in the record, and which bytes that depends on. -/

namespace Sys2Proof.Machine

/-! The record's bytes are those of the span and byte 127. -/

theorem ne_csumAddr_iff (a : Addr) : a ≠ csumAddr ↔ a.toNat < 127 := by
  have ha := a.isLt
  rw [Ne, ← BitVec.toNat_inj, show csumAddr.toNat = 127 from rfl]
  omega

theorem State.byteSum_add_checksumByte (s : State) : (s.byteSum 127 + (checksumByte s.spanSum).toNat) % 256 = 0 := by
  have hcancel := checksumByte_cancels s.spanSum
  rwa [State.spanSum_toNat, Nat.mod_add_mod] at hcancel

/-! The effect of `csum`. -/

/-- The state after a `csum` that is performed (R110). -/
def State.finalize (s : State) : State := ((s.quiet.setAcc s.spanSum).writeByte csumAddr (checksumByte s.spanSum)).advance

theorem exec_csum {s : State} (hf : s.faulted = false) : exec .csum s = .next s.finalize := by
  rw [exec_unfaulted hf, bodyOf, State.quiet_spanSum, State.finalize]

section Finalize
variable (s : State)

@[simp] theorem State.finalize_acc : s.finalize.acc = s.spanSum := by
  rw [State.finalize, State.advance_acc, State.writeByte_acc, State.setAcc_acc]

@[simp] theorem State.finalize_faulted : s.finalize.faulted = s.faulted := rfl

@[simp] theorem State.finalize_byteAt_csumAddr : s.finalize.byteAt csumAddr = some (checksumByte s.spanSum) := by
  rw [State.finalize, State.advance_byteAt, State.writeByte_byteAt_same]

variable {a : Addr}

theorem State.finalize_byteAt_other (h : a ≠ csumAddr) : s.finalize.byteAt a = s.byteAt a := by
  rw [State.finalize, State.advance_byteAt, State.writeByte_byteAt_other h, State.setAcc_byteAt, State.quiet_byteAt]

theorem State.finalize_byteAt_span (h : a.toNat < 127) : s.finalize.byteAt a = s.byteAt a :=
  s.finalize_byteAt_other ((ne_csumAddr_iff a).2 h)

end Finalize

/-! Two records that agree on the span, where it has been written (R112, R114). -/

section AgreeOnSpan
variable {s t : State} (hwritten : s.writtenBelow 127) (hspan : ∀ a : Addr, a.toNat < 127 → t.byteAt a = s.byteAt a)
include hwritten hspan

theorem State.readByte_eq_of_agree_on_span (a : Addr) (ha : a.toNat < 127) : t.readByte a = s.readByte a :=
  State.readByte_congr (hwritten a ha) (hspan a ha)

theorem State.spanSum_eq_of_agree_on_span : t.spanSum = s.spanSum :=
  State.spanSum_congr (State.readByte_eq_of_agree_on_span hwritten hspan)

/-- What `csum` leaves in ACC and in the whole record depends on the span only. -/
theorem State.finalize_eq_of_agree_on_span :
    t.finalize.acc = s.finalize.acc ∧ ∀ a, t.finalize.byteAt a = s.finalize.byteAt a := by
  have hsum := State.spanSum_eq_of_agree_on_span hwritten hspan
  refine ⟨hsum, fun a => ?_⟩
  by_cases ha : a = csumAddr
  · rw [ha, State.finalize_byteAt_csumAddr, State.finalize_byteAt_csumAddr, hsum]
  · rw [State.finalize_byteAt_other t ha, State.finalize_byteAt_other s ha, hspan a ((ne_csumAddr_iff a).1 ha)]

end AgreeOnSpan

/-! The finalized record. -/

section Written
variable {s : State} (hwritten : s.writtenBelow 127)
include hwritten

theorem State.finalize_writtenBelow : s.finalize.writtenBelow 128 := by
  intro a _
  by_cases ha : a = csumAddr
  · rw [ha, State.finalize_byteAt_csumAddr]
    exact Option.some_ne_none _
  · rw [State.finalize_byteAt_other s ha]
    exact hwritten a ((ne_csumAddr_iff a).1 ha)

/-- The 128 bytes of the finalized record are those summed and the checksum byte. -/
theorem State.finalize_byteSum : s.finalize.byteSum 128 = s.byteSum 127 + (checksumByte s.spanSum).toNat := by
  have hspan : s.finalize.byteSum 127 = s.byteSum 127 :=
    State.byteSum_congr (by decide) (State.readByte_eq_of_agree_on_span hwritten fun _ => s.finalize_byteAt_span)
  have hlast : s.finalize.readByte csumAddr = checksumByte s.spanSum := State.readByte_of_byteAt s.finalize_byteAt_csumAddr
  calc s.finalize.byteSum 128 = s.finalize.byteSum 127 + (s.finalize.readByte csumAddr).toNat := s.finalize.byteSum_succ 127
    _ = s.byteSum 127 + (checksumByte s.spanSum).toNat := by rw [hspan, hlast]

end Written

/-! The obligations. -/

/-- Settles O41: ACC is the accumulator's sum and byte 127 its checksum byte, and both are known as integers. -/
theorem csumFinalizes : Obligations.CsumFinalizes := by
  intro s hf
  exact ⟨_, _, exec_csum hf, s.spanSum_toNat, s.finalize_byteAt_csumAddr, rfl, checksumByte_toNat s.spanSum, s.byteSum_add_checksumByte,
    fun _ => s.finalize_byteAt_other, rfl, rfl, rfl, rfl⟩

/-- Settles O42: the sum over the finalized record is the sum `csum` took plus its checksum byte. -/
theorem finalizedRecordSumsToZero : Obligations.FinalizedRecordSumsToZero := by
  intro s hf hwritten
  refine ⟨_, exec_csum hf, State.finalize_writtenBelow hwritten, ?_⟩
  rw [State.finalize_byteSum hwritten, s.byteSum_add_checksumByte]

/-- Settles O43: neither a `csum` nor a store to byte 127 touches the span, so the next `csum` leaves what a `csum` of the first state does. -/
theorem csumIsIdempotent : Obligations.CsumIsIdempotent := by
  intro s v hf hwritten
  obtain ⟨w, hstb, -, hother, hstatus, -⟩ := stbStoresOneByte s.finalize 127#7 v hf
  have hspan (a : Addr) (ha : a.toNat < 127) : w.byteAt a = s.byteAt a :=
    (hother a ((ne_csumAddr_iff a).2 ha)).trans (s.finalize_byteAt_span ha)
  have hfw : w.faulted = false := (State.faulted_of_status hstatus).trans hf
  obtain ⟨hacc, hbytes⟩ := State.finalize_eq_of_agree_on_span hwritten fun _ => s.finalize_byteAt_span
  exact ⟨_, _, w, _, exec_csum hf, exec_csum (s := s.finalize) hf, hacc, hbytes, hstb, exec_csum hfw,
    State.finalize_eq_of_agree_on_span hwritten hspan⟩

/-- Settles O44: the two states agree on the span, so `csum` leaves the same ACC and the same bytes. -/
theorem csumDependsOnTheSpanOnly : Obligations.CsumDependsOnTheSpanOnly := by
  intro s t hs ht hwritten hspan
  obtain ⟨hacc, hbytes⟩ := State.finalize_eq_of_agree_on_span hwritten hspan
  exact ⟨_, _, exec_csum hs, exec_csum ht, hacc, hbytes csumAddr⟩

end Sys2Proof.Machine

/-! SUPPORT. Proofs for 48_host_procedures.md, the descriptors: the bytes a descriptor leaves in its slot, the record of a mode, and what a string
leaves of the slot. -/

namespace Sys2Proof.Machine

/-! Packed bytes as integers, and the values read back from them (R123, R124, R126). -/

theorem low8_toNat {w : Nat} (a : BitVec w) : (low8 a).toNat = a.toNat % 256 := by
  rw [low8, BitVec.extractLsb'_toNat, Nat.shiftRight_zero]

theorem toNat_append_eq_add {m n : Nat} (x : BitVec m) (y : BitVec n) : (x ++ y).toNat = x.toNat * 2 ^ n + y.toNat := by
  rw [BitVec.toNat_append, ← Nat.shiftLeft_add_eq_or_of_lt y.isLt, Nat.shiftLeft_eq]

theorem highNibbles_toNat (a b : BitVec 12) : (highNibbles a b).toNat = 16 * (a.toNat / 256) + b.toNat / 256 := by
  have ha := a.isLt
  have hb := b.isLt
  rw [highNibbles, toNat_append_eq_add, BitVec.extractLsb'_toNat, BitVec.extractLsb'_toNat, Nat.shiftRight_eq_div_pow, Nat.shiftRight_eq_div_pow]
  omega

theorem littleEndian_toNat (v : BitVec 16) : (low8 v).toNat + 256 * (v.extractLsb' 8 8).toNat = v.toNat := by
  have hhi : (v.extractLsb' 8 8).toNat = v.toNat / 256 := hiByte_toNat v
  rw [low8_toNat, hhi, Nat.mod_add_div]

/-- A 12-bit value is its high nibble and its low byte. -/
theorem highNibble_append_low8 (a : BitVec 12) : a.extractLsb' 8 4 ++ low8 a = a :=
  (BitVec.extractLsb'_append_extractLsb'_eq_extractLsb' (start₁ := 0) (start₂ := 8) rfl).trans BitVec.extractLsb'_eq_self

theorem highNibbles_unpacks_first (a b : BitVec 12) : (highNibbles a b).extractLsb' 4 4 ++ low8 a = a := by
  rw [highNibbles, BitVec.extractLsb'_append_eq_left, highNibble_append_low8]

theorem highNibbles_unpacks_second (a b : BitVec 12) : (highNibbles a b).extractLsb' 0 4 ++ low8 b = b := by
  rw [highNibbles, BitVec.extractLsb'_append_eq_right, highNibble_append_low8]

theorem append_bytes_eq_zero_iff (hi lo : Byte) : hi ++ lo = 0#16 ↔ hi = 0#8 ∧ lo = 0#8 := by
  refine ⟨fun h => ⟨?_, ?_⟩, fun ⟨hhi, hlo⟩ => by rw [hhi, hlo]; rfl⟩
  · rw [← BitVec.extractLsb'_append_eq_left (a := hi) (b := lo), h]
    rfl
  · rw [← BitVec.extractLsb'_append_eq_right (a := hi) (b := lo), h]
    rfl

/-! The tag and the type byte (R121). -/

/-- The bytes a descriptor leaves, one equation for each of its writes. -/
theorem Descriptor.forall_overwrite_pack (f : DescriptorFormat) (d : Descriptor) (b : SlotBytes) :
    ∀ q ∈ d.pack f, SlotBytes.overwrite b (d.pack f) q.1 = q.2 :=
  fun _ hq => Descriptor.overwrite_pack hq b

/-- The two-byte field is nonzero exactly when its two bytes side by side are. -/
theorem SlotBytes.isPixelTiming_iff (b : SlotBytes) : b.isPixelTiming ↔ b 1 ++ b 0 ≠ 0#16 := by
  rw [SlotBytes.isPixelTiming, Ne, append_bytes_eq_zero_iff, and_comm]

theorem Descriptor.pixelTiming_tag (f : DescriptorFormat) (d : PixelTiming) (b : SlotBytes) :
    SlotBytes.overwrite b ((Descriptor.pixelTiming d).pack f) 1 ++ SlotBytes.overwrite b ((Descriptor.pixelTiming d).pack f) 0 = d.clock := by
  have hlo : (0, low8 d.clock) ∈ (Descriptor.pixelTiming d).pack f := by simp [Descriptor.pack, packPixelTiming]
  have hhi : (1, d.clock.extractLsb' 8 8) ∈ (Descriptor.pixelTiming d).pack f := by simp [Descriptor.pack, packPixelTiming]
  rw [Descriptor.overwrite_pack hlo, Descriptor.overwrite_pack hhi]
  exact hiByte_append_loByte d.clock

/-- The type byte of a non-pixel descriptor. -/
def Descriptor.typeByte (f : DescriptorFormat) : Descriptor → Option Byte
  | .pixelTiming _ => none
  | .monitorRange _ => some f.types.monitorRange
  | .text kind _ => some (f.types.ofKind kind)
  | .dummy => some f.types.dummy

section TypeByte
variable {f : DescriptorFormat} {d : Descriptor} {v : Byte} (h : d.typeByte f = some v)
include h

/-- A non-pixel descriptor writes the zero tag and its type byte. -/
theorem Descriptor.tag_mem_pack : (0, 0x00#8) ∈ d.pack f ∧ (1, 0x00#8) ∈ d.pack f ∧ (3, v) ∈ d.pack f := by
  cases d with
  | pixelTiming d => cases h
  | monitorRange d => cases h; simp [Descriptor.pack, packMonitorRange]
  | text kind chars => cases h; simp [Descriptor.pack, packString]
  | dummy => cases h; simp [Descriptor.pack, packDummy]

theorem Descriptor.overwrite_zeroTag (b : SlotBytes) :
    SlotBytes.overwrite b (d.pack f) 0 = 0x00#8 ∧ SlotBytes.overwrite b (d.pack f) 1 = 0x00#8 := by
  obtain ⟨h0, h1, -⟩ := Descriptor.tag_mem_pack h
  exact ⟨Descriptor.overwrite_pack h0 b, Descriptor.overwrite_pack h1 b⟩

theorem Descriptor.overwrite_typeByte (b : SlotBytes) : SlotBytes.overwrite b (d.pack f) 3 = v := by
  obtain ⟨-, -, h3⟩ := Descriptor.tag_mem_pack h
  exact Descriptor.overwrite_pack h3 b

end TypeByte

theorem Descriptor.isPixelTiming_overwrite_iff (f : DescriptorFormat) (d : Descriptor) (b : SlotBytes) :
    (SlotBytes.overwrite b (d.pack f)).isPixelTiming ↔ d.typeByte f = none := by
  cases hd : d.typeByte f with
  | some v =>
    obtain ⟨h0, h1⟩ := Descriptor.overwrite_zeroTag hd b
    simp [h0, h1]
  | none =>
    cases d with
    | pixelTiming d => simpa only [SlotBytes.isPixelTiming_iff, Descriptor.pixelTiming_tag, iff_true] using d.tagged
    | monitorRange | text | dummy => cases hd

/-- Settles O55: the tag is nonzero exactly for a descriptor without a type byte, and a type byte is what offset 3 holds. -/
theorem descriptorTagTellsTheVariant : Obligations.DescriptorTagTellsTheVariant := by
  intro f d b
  rw [Descriptor.isPixelTiming_overwrite_iff]
  cases d with
  | pixelTiming d => simp [Descriptor.typeByte]
  | monitorRange | text | dummy => exact ⟨by simp [Descriptor.typeByte], Descriptor.overwrite_typeByte rfl b⟩

/-! The record of a mode (R122, R123, R127). -/

theorem hostBind_eq_ok {α β : Type} {x : Except HostStop α} {g : α → Except HostStop β} {r : β} :
    x >>= g = .ok r ↔ ∃ v, x = .ok v ∧ g v = .ok r := by
  cases x <;> simp [bind, Except.bind]

/-- The record holds the mode's quantities, and by its own blanks, offsets and widths the rest of each axis (R122). -/
structure PixelTiming.Encodes (d : PixelTiming) (p : HostParams) (m : DisplayMode) (width height : Nat) : Prop where
  hActive : d.hActive.toNat = m.hactive
  hTotal : d.hActive.toNat + d.hBlank.toNat = m.htotal
  hSyncStart : d.hActive.toNat + d.hOffset.toNat = m.hsyncStart
  hSyncEnd : m.hsyncStart + d.hWidth.toNat = m.hsyncEnd
  vActive : d.vActive.toNat = m.vactive
  vTotal : d.vActive.toNat + d.vBlank.toNat = m.vtotal
  vSyncStart : d.vActive.toNat + d.vOffset.toNat = m.vsyncStart
  vSyncEnd : m.vsyncStart + d.vWidth.toNat = m.vsyncEnd
  width : d.width.toNat = width
  height : d.height.toNat = height
  hPositive : d.hPositive = m.hsyncPositive
  vPositive : d.vPositive = m.vsyncPositive
  clock : d.clock.toNat = clockTens p m.clock

/-- A field of a difference, as the sum it stands for. -/
theorem modeDiff_field_eq_ok {stop : HostStop} {w a b : Nat} {β : Type} {g : BitVec w → Except HostStop β} {r : β} :
    (modeDiff a b >>= fun n => hostField stop w n >>= g) = .ok r ↔ ∃ v, b + v.toNat = a ∧ g v = .ok r := by
  simp only [hostBind_eq_ok, modeDiff_eq_ok, hostField_eq_ok]
  constructor
  · rintro ⟨n, ⟨hle, rfl⟩, v, hv, hg⟩
    exact ⟨v, by omega, hg⟩
  · rintro ⟨v, hv, hg⟩
    exact ⟨_, ⟨by omega, rfl⟩, v, by omega, hg⟩

theorem hostField_bind_eq_ok {stop : HostStop} {w n : Nat} {β : Type} {g : BitVec w → Except HostStop β} {r : β} :
    hostField stop w n >>= g = .ok r ↔ ∃ v, v.toNat = n ∧ g v = .ok r := by
  simp only [hostBind_eq_ok, hostField_eq_ok]

section Mode
variable {p : HostParams} {m : DisplayMode} {width height : Nat} {d : PixelTiming}

/-- The encoder yields the record that holds the mode's quantities, and none for a mode that no record holds. -/
theorem pixelTiming_eq_ok_iff : pixelTiming p m width height = .ok d ↔ d.Encodes p m width height := by
  simp only [pixelTiming, modeDiff_field_eq_ok, hostField_bind_eq_ok]
  constructor
  · rintro ⟨hA, hActive, hB, hBlank, hO, hOffset, hW, hWidth, vA, vActive, vB, vBlank, vO, vOffset, vW, vWidth,
      w, rfl, h, rfl, c, hc, hd⟩
    split at hd
    · cases hd
      constructor <;> simp [*]
    · cases hd
  · rintro ⟨hActive, hTotal, hSyncStart, hSyncEnd, vActive, vTotal, vSyncStart, vSyncEnd, hw, hh, hP, vP, hc⟩
    refine ⟨d.hActive, hActive, d.hBlank, hActive ▸ hTotal, d.hOffset, hActive ▸ hSyncStart, d.hWidth, hSyncEnd, d.vActive, vActive,
      d.vBlank, vActive ▸ vTotal, d.vOffset, vActive ▸ vSyncStart, d.vWidth, vSyncEnd, d.width, hw, d.height, hh, d.clock, hc, ?_⟩
    rw [dif_pos d.tagged, ← hP, ← vP]
    rfl

/-- R127's bounds, no negative difference, and a clock that fits its 16 bits and does not round to 0: when a mode has a record. -/
theorem exists_encodes_iff :
    (∃ d : PixelTiming, d.Encodes p m width height) ↔
      (m.hactive ≤ 0xFFF ∧ m.htotal - m.hactive ≤ 0xFFF ∧ m.hsyncStart - m.hactive ≤ 0x3FF ∧ m.hsyncEnd - m.hsyncStart ≤ 0x3FF) ∧
      (m.vactive ≤ 0xFFF ∧ m.vtotal - m.vactive ≤ 0xFFF ∧ m.vsyncStart - m.vactive ≤ 0x3F ∧ m.vsyncEnd - m.vsyncStart ≤ 0x3F) ∧
      (width ≤ 0xFFF ∧ height ≤ 0xFFF) ∧
      (m.hactive ≤ m.htotal ∧ m.hactive ≤ m.hsyncStart ∧ m.hsyncStart ≤ m.hsyncEnd) ∧
      (m.vactive ≤ m.vtotal ∧ m.vactive ≤ m.vsyncStart ∧ m.vsyncStart ≤ m.vsyncEnd) ∧
      0 < clockTens p m.clock ∧ clockTens p m.clock < 65536 := by
  constructor
  · rintro ⟨d, ⟨hActive, hTotal, hSyncStart, hSyncEnd, vActive, vTotal, vSyncStart, vSyncEnd, hw, hh, -, -, hc⟩⟩
    have hclock : d.clock.toNat ≠ 0 := fun h => d.tagged (BitVec.eq_of_toNat_eq h)
    omega
  · intro h
    have htagged : BitVec.ofNatLT (clockTens p m.clock) (by omega) ≠ 0#16 := by
      intro h0
      have hzero : clockTens p m.clock = 0 := congrArg BitVec.toNat h0
      omega
    refine ⟨{ clock := .ofNatLT (clockTens p m.clock) (by omega), hActive := .ofNatLT m.hactive (by omega),
              hBlank := .ofNatLT (m.htotal - m.hactive) (by omega), vActive := .ofNatLT m.vactive (by omega),
              vBlank := .ofNatLT (m.vtotal - m.vactive) (by omega), hOffset := .ofNatLT (m.hsyncStart - m.hactive) (by omega),
              hWidth := .ofNatLT (m.hsyncEnd - m.hsyncStart) (by omega), vOffset := .ofNatLT (m.vsyncStart - m.vactive) (by omega),
              vWidth := .ofNatLT (m.vsyncEnd - m.vsyncStart) (by omega), width := .ofNatLT width (by omega),
              height := .ofNatLT height (by omega), hPositive := m.hsyncPositive, vPositive := m.vsyncPositive, tagged := htagged },
      ?_⟩
    constructor <;> simp only [BitVec.toNat_ofNatLT] <;> omega

end Mode

/-- Settles O57: a record comes from a mode exactly when it encodes it, and a record that encodes the mode exists within the bounds. -/
theorem pixelTimingOfAMode : Obligations.PixelTimingOfAMode := by
  intro p m width height
  simp only [pixelTiming_eq_ok_iff]
  refine ⟨exists_encodes_iff, fun d h => ?_, clockTens_nearest p m.clock⟩
  exact ⟨⟨h.hActive, h.hTotal, h.hSyncStart, h.hSyncEnd⟩, ⟨h.vActive, h.vTotal, h.vSyncStart, h.vSyncEnd⟩, h.width, h.height,
    h.hPositive, h.vPositive, h.clock⟩

/-! The monitor range of a mode (R128). -/

theorem horizontalRate_eq_ok {m : DisplayMode} {rate : Nat} :
    horizontalRate m = .ok rate ↔ m.htotal ≠ 0 ∧ m.clock / m.htotal = rate := by
  rw [horizontalRate]
  split <;> simp [*]

/-- The fields of a monitor range, as the rates and the clock they come from. -/
theorem fields_of_monitorRange_eq_ok {p : HostParams} {m : DisplayMode} {d : MonitorRange} (h : monitorRange p m = .ok d) :
    (d.minV.toNat + 1 = m.refresh ∧ d.maxV.toNat = m.refresh + 1) ∧
    (d.minH.toNat + 1 = m.clock / m.htotal ∧ d.maxH.toNat = m.clock / m.htotal + 1) ∧
    d.clockTensOfMHz.toNat = clockTensOfMHz p m.clock := by
  simp only [monitorRange, hostBind_eq_ok (x := horizontalRate m), horizontalRate_eq_ok, modeDiff_field_eq_ok, hostField_bind_eq_ok] at h
  obtain ⟨_, ⟨-, rfl⟩, minV, hminV, maxV, hmaxV, minH, hminH, maxH, hmaxH, clock, hclock, hd⟩ := h
  cases hd
  exact ⟨⟨(Nat.add_comm _ _).trans hminV, hmaxV⟩, ⟨(Nat.add_comm _ _).trans hminH, hmaxH⟩, hclock⟩

/-- "rounded-up": the quotient plus one, or the ceiling (R128). -/
theorem clockTensOfMHz_rounds_up (p : HostParams) (clock : Nat) :
    if p.clockPlusOne then clockTensOfMHz p clock = clock / 10000 + 1
      else clock ≤ 10000 * clockTensOfMHz p clock ∧ 10000 * clockTensOfMHz p clock < clock + 10000 := by
  rw [clockTensOfMHz]
  split
  · rfl
  · omega

theorem paddingOffsets_getElem? : ∀ k : Fin 7, ([11, 12, 13, 14, 15, 16, 17] : List (Fin 18))[k.val]? = some ⟨11 + k.val, by omega⟩ := by
  decide

section MonitorRange
variable (f : DescriptorFormat) (d : MonitorRange) (b : SlotBytes)

theorem overwrite_monitorRange_fields :
    SlotBytes.overwrite b ((Descriptor.monitorRange d).pack f) 5 = d.minV ∧
    SlotBytes.overwrite b ((Descriptor.monitorRange d).pack f) 6 = d.maxV ∧
    SlotBytes.overwrite b ((Descriptor.monitorRange d).pack f) 7 = d.minH ∧
    SlotBytes.overwrite b ((Descriptor.monitorRange d).pack f) 8 = d.maxH ∧
    SlotBytes.overwrite b ((Descriptor.monitorRange d).pack f) 9 = d.clockTensOfMHz := by
  have hbytes := Descriptor.forall_overwrite_pack f (.monitorRange d) b
  simp only [Descriptor.pack, packMonitorRange, List.cons_append, List.forall_mem_cons] at hbytes
  obtain ⟨-, -, -, -, -, h5, h6, h7, h8, h9, -⟩ := hbytes
  exact ⟨h5, h6, h7, h8, h9⟩

theorem overwrite_monitorRange_padding (k : Fin 7) :
    SlotBytes.overwrite b ((Descriptor.monitorRange d).pack f) ⟨11 + k.val, by omega⟩ = f.rangePadding[k] := by
  refine Descriptor.overwrite_pack (List.mem_append_right _ (List.mem_of_getElem? (i := k.val) ?_)) b
  exact List.getElem?_zip_eq_some.2 ⟨paddingOffsets_getElem? k, by simp⟩

end MonitorRange

/-- Settles O60: each byte is what the descriptor's own write puts there, as an integer. -/
theorem descriptorBytes : Obligations.DescriptorBytes := by
  refine ⟨fun f d b c hc => ?_, fun p m d b c hd hc => ?_⟩
  · have hbytes := Descriptor.forall_overwrite_pack f (.pixelTiming d) b
    rw [← hc] at hbytes
    simp only [Descriptor.pack, packPixelTiming, List.forall_mem_cons] at hbytes
    obtain ⟨h0, h1, h2, h3, h4, h5, h6, h7, -, -, -, -, h12, h13, h14, -⟩ := hbytes
    rw [h0, h1, h2, h3, h4, h5, h6, h7, h12, h13, h14]
    exact ⟨littleEndian_toNat d.clock, ⟨low8_toNat _, low8_toNat _, highNibbles_toNat _ _⟩,
      ⟨low8_toNat _, low8_toNat _, highNibbles_toNat _ _⟩, low8_toNat _, low8_toNat _, highNibbles_toNat _ _⟩
  · subst hc
    obtain ⟨h0, h1⟩ := Descriptor.overwrite_zeroTag (f := p.format) (d := .monitorRange d) rfl b
    obtain ⟨h5, h6, h7, h8, h9⟩ := overwrite_monitorRange_fields p.format d b
    obtain ⟨hV, hH, hclock⟩ := fields_of_monitorRange_eq_ok hd
    rw [h5, h6, h7, h8, h9, hclock]
    exact ⟨⟨h0, h1, Descriptor.overwrite_typeByte rfl b⟩, hV, hH, clockTensOfMHz_rounds_up p m.clock,
      overwrite_monitorRange_padding p.format d b⟩

/-! What a string leaves of its slot (R129). -/

theorem stringPayload_eq_take (newline : Byte) (chars : List Byte) : stringPayload newline chars = (chars ++ [newline]).take 13 := by
  rw [stringPayload]
  split
  · rw [List.take_of_length_le (by simp; omega)]
  · rw [List.take_append_of_le_length (by omega)]

theorem payloadOffsets_getElem : ∀ k : Fin payloadOffsets.length, payloadOffsets[k].val = 5 + k.val := by
  decide

theorem mem_take_payloadOffsets {n : Nat} {o : Fin 18} (h : o ∈ payloadOffsets.take n) : 5 ≤ o.val ∧ o.val < 5 + n := by
  obtain ⟨k, hk, rfl⟩ := List.mem_take_iff_getElem.1 h
  have := payloadOffsets_getElem ⟨k, by omega⟩
  simp only [Fin.getElem_fin] at this
  omega

theorem not_mem_header_of_ge : ∀ o : Fin 18, 5 ≤ o.val → o ∉ ([0, 1, 3] : List (Fin 18)) := by
  decide

theorem payloadOffsets_getElem?_sub {o : Fin 18} (h : 5 ≤ o.val) : payloadOffsets[o.val - 5]? = some o := by
  revert o
  decide

section Text
variable (f : DescriptorFormat) (kind : StringKind) (chars : List Byte) (b : SlotBytes)

/-- The payload bytes: the text and the sentinel after it as far as there is room, and what the slot held before. -/
theorem overwrite_text_payload {o : Fin 18} (h : 5 ≤ o.val) :
    SlotBytes.overwrite b ((Descriptor.text kind chars).pack f) o = ((chars ++ [f.newline])[o.val - 5]?).getD (b o) := by
  have ho := o.isLt
  cases hv : (chars ++ [f.newline])[o.val - 5]? with
  | some v =>
    refine Descriptor.overwrite_pack (List.mem_append_right _ (List.mem_of_getElem? (i := o.val - 5) ?_)) b
    rw [List.getElem?_zip_eq_some, stringPayload_eq_take, List.getElem?_take_of_lt (by omega)]
    exact ⟨payloadOffsets_getElem?_sub h, hv⟩
  | none =>
    refine SlotBytes.overwrite_other ?_ b
    rw [Descriptor.pack, packString_offsets, List.mem_append, not_or]
    refine ⟨not_mem_header_of_ge o h, fun hmem => ?_⟩
    obtain ⟨-, hlt⟩ := mem_take_payloadOffsets hmem
    rw [List.getElem?_eq_none_iff] at hv
    rw [stringPayload_eq_take, List.length_take] at hlt
    omega

/-- Bytes 2 and 4 are not written. -/
theorem overwrite_text_unwritten {o : Fin 18} (h : o.val < 5) (h0 : o ≠ 0) (h1 : o ≠ 1) (h3 : o ≠ 3) :
    SlotBytes.overwrite b ((Descriptor.text kind chars).pack f) o = b o := by
  refine SlotBytes.overwrite_other ?_ b
  rw [Descriptor.pack, packString_offsets, List.mem_append, not_or]
  refine ⟨by simp [h0, h1, h3], fun hmem => ?_⟩
  obtain ⟨hge, -⟩ := mem_take_payloadOffsets hmem
  omega

end Text

theorem text_then_sentinel_getD (chars : List Byte) (newline x : Byte) (k : Nat) :
    ((chars ++ [newline])[k]?).getD x = if h : k < chars.length then chars[k] else if k = chars.length then newline else x := by
  split
  next hlt => rw [List.getElem?_append_left hlt, List.getElem?_eq_getElem hlt, Option.getD_some]
  next hge =>
    split
    next heq => rw [heq, List.getElem?_concat_length, Option.getD_some]
    next hne => rw [List.getElem?_eq_none (by simp; omega), Option.getD_none]

/-- Settles O58: a type byte names its own subtype or none, and the slot is the tag, the type byte, the payload and what the string leaves. -/
theorem stringDescriptorPayload : Obligations.StringDescriptorPayload := by
  refine ⟨fun f subtype text h => ?_, fun f kind text b => ?_⟩
  · rw [stringDescriptor, TypeBytes.kindOf_eq_none h]
  · obtain ⟨h0, h1⟩ := Descriptor.overwrite_zeroTag (f := f) (d := .text kind text) rfl b
    refine ⟨.text kind text, ?_, h0, h1, Descriptor.overwrite_typeByte rfl b, fun o ho0 ho1 ho3 => ?_⟩
    · rw [stringDescriptor, TypeBytes.kindOf_ofKind]
    · split
      next hlt => exact overwrite_text_unwritten f kind text b hlt ho0 ho1 ho3
      next hge => rw [overwrite_text_payload f kind text b (by omega), text_then_sentinel_getD]

/-! A text read back from its slot (R121, R129). -/

theorem overwrite_text_payloadOffset (f : DescriptorFormat) (kind : StringKind) (chars : List Byte) (b : SlotBytes) (k : Nat)
    (hk : k < payloadOffsets.length) :
    SlotBytes.overwrite b ((Descriptor.text kind chars).pack f) payloadOffsets[k] =
      ((chars ++ [f.newline])[k]?).getD (b payloadOffsets[k]) := by
  have hval : payloadOffsets[k].val = 5 + k := payloadOffsets_getElem ⟨k, hk⟩
  rw [overwrite_text_payload f kind chars b (by omega), hval, Nat.add_sub_cancel_left]

/-- The payload starts with the text, and what follows it, if anything, is the sentinel. -/
theorem payload_takeWhile (f : DescriptorFormat) (kind : StringKind) {chars : List Byte} (b : SlotBytes) (hlen : chars.length ≤ 13)
    (hnew : f.newline ∉ chars) :
    (payloadOffsets.map (SlotBytes.overwrite b ((Descriptor.text kind chars).pack f))).takeWhile (· ≠ f.newline) = chars := by
  have hbyte := overwrite_text_payloadOffset f kind chars b
  generalize SlotBytes.overwrite b ((Descriptor.text kind chars).pack f) = c at hbyte ⊢
  have htext : (payloadOffsets.take chars.length).map c = chars := by
    refine List.ext_getElem (by simpa [payloadOffsets] using hlen) fun k hk hk' => ?_
    rw [List.getElem_map, List.getElem_take, hbyte, List.getElem?_append_left hk', List.getElem?_eq_getElem hk', Option.getD_some]
  have hrest : ((payloadOffsets.drop chars.length).map c).takeWhile (· ≠ f.newline) = [] := by
    refine List.takeWhile_eq_nil_iff.2 fun hl => ?_
    have hend : c (payloadOffsets[chars.length]'(by simpa using hl)) = f.newline := by
      rw [hbyte, List.getElem?_concat_length, Option.getD_some]
    simp [hend]
  have hkept : ∀ v ∈ chars, decide (v ≠ f.newline) = true := fun v hv => decide_eq_true fun he => hnew (he ▸ hv)
  rw [← List.take_append_drop chars.length payloadOffsets, List.map_append, htext, List.takeWhile_append_of_pos hkept, hrest,
    List.append_nil]

/-! The sync quantities, bit by bit (R125): a byte is the sum of the bits placed in it, and every bit is placed once. -/

/-- What bit `q` of a sync quantity is worth to the quantity `g`: its weight if it is set and a bit of `g`. -/
def placeBit (value : SyncField → Nat) (g : SyncField) (q : SyncField × Nat) : Nat :=
  if q.1 = g then value g / 2 ^ q.2 % 2 * 2 ^ q.2 else 0

theorem sum_bits (v lo len : Nat) :
    ((List.range len).map fun i => v / 2 ^ (lo + i) % 2 * 2 ^ (lo + i)).sum = v / 2 ^ lo % 2 ^ len * 2 ^ lo := by
  induction len with
  | zero => simp [Nat.mod_one]
  | succ len ih =>
    rw [List.range_succ, List.map_append, List.sum_append, ih, Nat.mod_pow_succ, Nat.div_div_eq_div_mul, ← Nat.pow_add]
    simp only [List.map_cons, List.map_nil, List.sum_cons, List.sum_nil]
    ring

section Sync
variable (value : SyncField → Nat) (g : SyncField)

theorem sum_placeBit_places (c : SyncSlice) :
    (c.places.map (placeBit value g)).sum = if c.field = g then value c.field / 2 ^ c.lo % 2 ^ c.len * 2 ^ c.lo else 0 := by
  rw [SyncSlice.places, List.map_map]
  split
  next h => simp only [Function.comp_def, placeBit, h, if_true, sum_bits]
  next h => simp [Function.comp_def, placeBit, h]

/-- The number the slices of a byte spell, the most significant slice first. -/
def sliceValue (slices : List SyncSlice) : Nat :=
  slices.foldl (fun acc c => acc * 2 ^ c.len + value c.field / 2 ^ c.lo % 2 ^ c.len) 0

theorem sliceValue_concat (slices : List SyncSlice) (c : SyncSlice) :
    sliceValue value (slices ++ [c]) = sliceValue value slices * 2 ^ c.len + value c.field / 2 ^ c.lo % 2 ^ c.len := by
  rw [sliceValue, List.foldl_concat, sliceValue]

theorem sliceValue_lt (slices : List SyncSlice) : sliceValue value slices < 2 ^ (slices.flatMap SyncSlice.places).length := by
  induction slices using List.reverseRecOn with
  | nil => simp [sliceValue]
  | append_singleton slices c ih =>
    have hc : value c.field / 2 ^ c.lo % 2 ^ c.len < 2 ^ c.len := Nat.mod_lt _ (Nat.two_pow_pos _)
    have hlen : ((slices ++ [c]).flatMap SyncSlice.places).length = (slices.flatMap SyncSlice.places).length + c.len := by
      simp [SyncSlice.places]
    rw [sliceValue_concat, hlen, Nat.pow_add]
    calc sliceValue value slices * 2 ^ c.len + value c.field / 2 ^ c.lo % 2 ^ c.len
        < (sliceValue value slices + 1) * 2 ^ c.len := by rw [Nat.add_one_mul]; exact Nat.add_lt_add_left hc _
      _ ≤ 2 ^ (slices.flatMap SyncSlice.places).length * 2 ^ c.len := Nat.mul_le_mul_right _ ih

/-- Unpacking the number that slices spell adds up the bits the slices place. -/
theorem unpackSlices_sliceValue (slices : List SyncSlice) :
    unpackSlices g (sliceValue value slices) slices.reverse = ((slices.flatMap SyncSlice.places).map (placeBit value g)).sum := by
  induction slices using List.reverseRecOn with
  | nil => rfl
  | append_singleton slices c ih =>
    have hlt : value c.field / 2 ^ c.lo % 2 ^ c.len < 2 ^ c.len := Nat.mod_lt _ (Nat.two_pow_pos _)
    have hmod : sliceValue value (slices ++ [c]) % 2 ^ c.len = value c.field / 2 ^ c.lo % 2 ^ c.len := by
      rw [sliceValue_concat, Nat.mul_add_mod', Nat.mod_mod]
    have hdiv : sliceValue value (slices ++ [c]) / 2 ^ c.len = sliceValue value slices := by
      rw [sliceValue_concat, Nat.add_comm, Nat.add_mul_div_right _ _ (Nat.two_pow_pos _), Nat.div_eq_of_lt hlt, Nat.zero_add]
    rw [List.reverse_concat, unpackSlices, hmod, hdiv, ih, ← sum_placeBit_places, Nat.add_comm]
    simp

theorem packSlices_toNat {slices : List SyncSlice} (h : (slices.flatMap SyncSlice.places).length = 8) :
    (packSlices value slices).toNat = sliceValue value slices := by
  have hlt := sliceValue_lt value slices
  rw [h] at hlt
  exact Nat.mod_eq_of_lt hlt

theorem sum_placeBit_syncBits : (syncBits.map (placeBit value g)).sum = value g % 2 ^ g.bits := by
  have hfield (field : SyncField) : (((List.range field.bits).map fun i => (field, i)).map (placeBit value g)).sum =
      if field = g then value field % 2 ^ field.bits else 0 := by
    simpa [SyncSlice.places] using sum_placeBit_places value g ⟨field, 0, field.bits⟩
  simp only [syncBits, List.flatMap_cons, List.flatMap_nil, List.map_append, List.sum_append, hfield]
  cases g <;> simp

end Sync

/-- For every layout that places each bit once, unpacking the four sync bytes gives each quantity back. -/
theorem unpackSync_eq {f : DescriptorFormat} {c : SlotBytes} {value : SyncField → Nat}
    (h8 : c 8 = packSlices value [⟨f.sync.lowA, 0, 8⟩]) (h9 : c 9 = packSlices value [⟨f.sync.lowB, 0, 8⟩])
    (h10 : c 10 = packSlices value f.sync.sharedA) (h11 : c 11 = packSlices value f.sync.sharedB) (g : SyncField) :
    unpackSync f c g = value g % 2 ^ g.bits := by
  have hplaced := f.sync.placed
  simp only [placedOnce, syncBytesOf, Bool.and_eq_true, List.all_cons, List.all_nil, beq_iff_eq, List.isPerm_iff] at hplaced
  obtain ⟨⟨hA, hB, hsA, hsB, -⟩, hperm⟩ := hplaced
  rw [← sum_placeBit_syncBits value g, ← (hperm.map _).sum_eq]
  simp only [unpackSync, syncBytesOf, List.zip_cons_cons, List.zip_nil_right, List.map_cons, List.map_nil, List.sum_cons, List.sum_nil,
    h8, h9, h10, h11, packSlices_toNat value hA, packSlices_toNat value hB, packSlices_toNat value hsA, packSlices_toNat value hsB,
    unpackSlices_sliceValue]
  simp

/-! The polarity flags (R126). -/

theorem bool_beq_beq : ∀ flag positive : Bool, ((flag == positive) == positive) = flag := by
  decide

theorem packMisc_unpacks (m : MiscLayout) (hPositive vPositive : Bool) :
    ((packMisc m hPositive vPositive).getLsbD m.hBit.val == m.hPositive) = hPositive ∧
    ((packMisc m hPositive vPositive).getLsbD m.vBit.val == m.vPositive) = vPositive := by
  rw [packMisc, putBit_getLsbD, putBit_getLsbD, putBit_getLsbD, if_neg m.distinct.symm, if_pos rfl, if_pos rfl]
  exact ⟨bool_beq_beq _ _, bool_beq_beq _ _⟩

/-! Unpacking, variant by variant (R121). -/

theorem PixelTiming.syncValue_lt (d : PixelTiming) (g : SyncField) : d.syncValue g < 2 ^ g.bits := by
  cases g <;> exact BitVec.isLt _

theorem unpackPixelTiming_overwrite {f : DescriptorFormat} {d : PixelTiming} {b c : SlotBytes}
    (hc : c = SlotBytes.overwrite b ((Descriptor.pixelTiming d).pack f)) (h : c 1 ++ c 0 ≠ 0#16) :
    unpackPixelTiming f c h = d := by
  have hclock : c 1 ++ c 0 = d.clock := hc ▸ Descriptor.pixelTiming_tag f d b
  have hbytes := Descriptor.forall_overwrite_pack f (.pixelTiming d) b
  rw [← hc] at hbytes
  simp only [Descriptor.pack, packPixelTiming, List.forall_mem_cons] at hbytes
  obtain ⟨-, -, h2, h3, h4, h5, h6, h7, h8, h9, h10, h11, h12, h13, h14, -, -, h17, -⟩ := hbytes
  have hsync (g : SyncField) : unpackSync f c g = d.syncValue g :=
    (unpackSync_eq h8 h9 h10 h11 g).trans (Nat.mod_eq_of_lt (d.syncValue_lt g))
  obtain ⟨hP, vP⟩ := packMisc_unpacks f.misc d.hPositive d.vPositive
  cases d
  simp only [unpackPixelTiming, hclock, h2, h3, h4, h5, h6, h7, h12, h13, h14, h17, highNibbles_unpacks_first,
    highNibbles_unpacks_second, hsync, PixelTiming.syncValue, BitVec.ofNat_toNat, BitVec.setWidth_eq, hP, vP]

theorem TypeBytes.ofKind_ne (t : TypeBytes) (kind : StringKind) : t.ofKind kind ≠ t.monitorRange ∧ t.ofKind kind ≠ t.dummy := by
  have h := t.distinct
  simp only [List.nodup_cons, List.mem_cons, not_or] at h
  cases kind <;> simp [TypeBytes.ofKind, h]

theorem TypeBytes.dummy_ne_monitorRange (t : TypeBytes) : t.dummy ≠ t.monitorRange := by
  have h := t.distinct
  simp only [List.nodup_cons, List.mem_cons, not_or] at h
  exact fun he => by simp [he] at h

/-- A slot with the zero tag is read by its type byte. -/
theorem Descriptor.unpack_of_zeroTag {f : DescriptorFormat} {c : SlotBytes} (h : c 0 = 0x00#8 ∧ c 1 = 0x00#8) :
    Descriptor.unpack f c =
      if c 3 = f.types.monitorRange then some (.monitorRange { minV := c 5, maxV := c 6, minH := c 7, maxH := c 8, clockTensOfMHz := c 9 })
      else if c 3 = f.types.dummy then some .dummy
      else (f.types.kindOf (c 3)).map fun kind => .text kind ((payloadOffsets.map c).takeWhile (· ≠ f.newline)) := by
  rw [Descriptor.unpack, dif_neg]
  simp [h]

/-- Settles O56, variant by variant: the tag and the type byte select the variant that was packed, and its fields are read back. -/
theorem descriptorUnpacks : Obligations.DescriptorUnpacks := by
  intro f d b htext
  cases d with
  | pixelTiming d => rw [Descriptor.unpack, dif_pos (Descriptor.pixelTiming_tag f d b ▸ d.tagged), unpackPixelTiming_overwrite rfl]
  | monitorRange d =>
    obtain ⟨h5, h6, h7, h8, h9⟩ := overwrite_monitorRange_fields f d b
    rw [Descriptor.unpack_of_zeroTag (Descriptor.overwrite_zeroTag rfl b), if_pos (Descriptor.overwrite_typeByte rfl b), h5, h6, h7, h8,
      h9]
  | text kind chars =>
    obtain ⟨hlen, hnew⟩ := htext kind chars rfl
    obtain ⟨hrange, hdummy⟩ := f.types.ofKind_ne kind
    rw [Descriptor.unpack_of_zeroTag (Descriptor.overwrite_zeroTag rfl b), Descriptor.overwrite_typeByte (d := .text kind chars) rfl b,
      if_neg hrange, if_neg hdummy, TypeBytes.kindOf_ofKind, Option.map_some, payload_takeWhile f kind b hlen hnew]
  | dummy =>
    rw [Descriptor.unpack_of_zeroTag (Descriptor.overwrite_zeroTag rfl b), Descriptor.overwrite_typeByte (d := .dummy) rfl b,
      if_neg f.types.dummy_ne_monitorRange, if_pos rfl]

end Sys2Proof.Machine

/-! SUPPORT. Proofs for 48_host_procedures.md, default initialization: lines that only store, and the record they leave. -/

namespace Sys2Proof.Machine

/-! Commands that only store (R41): a run of them leaves the bytes last stored. -/

/-- Byte writes one after the other. -/
def State.writeBytes (s : State) (writes : List (Addr × Byte)) : State := writes.foldl (fun t q => t.writeByte q.1 q.2) s

@[simp] theorem State.writeBytes_faulted (s : State) (writes : List (Addr × Byte)) : (s.writeBytes writes).faulted = s.faulted := by
  induction writes generalizing s with
  | nil => rfl
  | cons q rest ih => exact ih (s.writeByte q.1 q.2)

/-- The last write to an address decides what it holds. -/
theorem State.writeBytes_byteAt (s : State) (writes : List (Addr × Byte)) (a : Addr) :
    (s.writeBytes writes).byteAt a = (writes.reverse.lookup a).or (s.byteAt a) := by
  induction writes using List.reverseRecOn with
  | nil => rfl
  | append_singleton writes q ih =>
    rw [State.writeBytes, List.foldl_concat, ← State.writeBytes, State.writeByte_byteAt, ih, List.reverse_concat, List.lookup_cons]
    by_cases h : a = q.1
    · simp [h]
    · simp [h, beq_eq_false_iff_ne.2 h]

/-- The byte writes a command is, if it does nothing else and faults nowhere; none for the commands that respond, read the record or write ACC. -/
def storesOf : Instr → Option (List (Addr × Byte))
  | .clr => some (recAddrs.map fun a => (a, 0x00#8))
  | .stb addr val => some [(addr, val)]
  | .stSet slot hsize vfreq aspect =>
    if hsizeLegal hsize && vfreqLegal vfreq then
      some [(slotBase slot, stByte0 hsize), (nextAddr (slotBase slot), stByte1 vfreq aspect)]
    else none
  | .stUnset slot => some [(slotBase slot, stSentinel), (nextAddr (slotBase slot), stSentinel)]
  | .mfg l1 l2 l3 => some [(mfgAddr, hiByte (mfgValue l1 l2 l3)), (nextAddr mfgAddr, loByte (mfgValue l1 l2 l3))]
  | .gamma g => if gammaLegal g then some [(gammaAddr, gammaByte g)] else none
  | .ldb _ | .csum | .rdsr _ => none

theorem bodyOf_of_storesOf {i : Instr} {writes : List (Addr × Byte)} (h : storesOf i = some writes) (t : State) :
    bodyOf i t = t.writeBytes writes := by
  cases i with
  | clr =>
    cases h
    rw [State.writeBytes, List.foldl_map]
    rfl
  | stb | stUnset | mfg =>
    cases h
    rfl
  | stSet slot hsize vfreq aspect =>
    rw [storesOf] at h
    split at h
    next hlegal =>
      cases h
      obtain ⟨hh, hv⟩ := Bool.and_eq_true_iff.1 hlegal
      exact bodyOf_stSet hh hv slot aspect t
    next => cases h
  | gamma g =>
    rw [storesOf] at h
    split at h
    next hlegal =>
      cases h
      exact bodyOf_gamma hlegal t
    next => cases h
  | ldb | csum | rdsr => cases h

theorem wf_of_storesOf {i : Instr} {writes : List (Addr × Byte)} (h : storesOf i = some writes) : i.wf = true := by
  cases i with
  | rdsr => cases h
  | clr | stb | ldb | stSet | stUnset | mfg | gamma | csum => rfl

/-- The byte writes a list of lines assembles to, if every line only stores. -/
def storesOfLines : List AsmLine → Option (List (Addr × Byte))
  | [] => some []
  | l :: rest => do return (← storesOf (← assemble l)) ++ (← storesOfLines rest)

theorem performWord_of_storesOf {i : Instr} {writes : List (Addr × Byte)} (h : storesOf i = some writes) {s : State}
    (hf : s.faulted = false) : (performWord s (encode i)).1 = (s.quiet.writeBytes writes).advance := by
  rw [performWord_unfaulted hf (decodeOfEncode i (wf_of_storesOf h)), bodyOf_of_storesOf h]

/-- Lines that only store assemble, and their words leave FAULT 0 and the bytes stored last. -/
theorem run_of_storesOfLines {lines : List AsmLine} {writes : List (Addr × Byte)} (h : storesOfLines lines = some writes) :
    ∃ ws, assembleAll lines = some ws ∧ ∀ s : State, s.faulted = false →
      (runWords s ws).1.faulted = false ∧ ∀ a, (runWords s ws).1.byteAt a = (writes.reverse.lookup a).or (s.byteAt a) := by
  induction lines generalizing writes with
  | nil =>
    cases h
    exact ⟨[], rfl, fun s hf => ⟨hf, fun a => rfl⟩⟩
  | cons l rest ih =>
    simp only [storesOfLines, Option.bind_eq_bind, Option.bind_eq_some_iff, Option.pure_def, Option.some.injEq] at h
    obtain ⟨i, hi, u, hu, v, hv, rfl⟩ := h
    obtain ⟨ws, hws, hrun⟩ := ih hv
    refine ⟨encode i :: ws, by simp [assembleAll, hi, hws], fun s hf => ?_⟩
    rw [runWords_cons, performWord_of_storesOf hu hf]
    obtain ⟨hf', hbytes⟩ := hrun (s.quiet.writeBytes u).advance (by simpa using hf)
    refine ⟨hf', fun a => ?_⟩
    rw [hbytes, State.advance_byteAt, State.writeBytes_byteAt, State.quiet_byteAt, List.reverse_append, List.lookup_append, Option.or_assoc]

/-! Default initialization (R130, R131). -/

theorem fitField_toNat {w : Nat} (v : BitVec w) : fitField w v.toNat = some v := by
  rw [fitField, if_pos v.isLt, BitVec.ofNat_toNat, BitVec.setWidth_eq]

theorem yearOffset_eq_ok {year : Nat} {v : Byte} (h : yearOffset year = .ok v) : v.toNat + 1990 = year := by
  rw [yearOffset] at h
  split at h
  next hle =>
    rw [hostField_eq_ok] at h
    omega
  next => cases h

/-- What default initialization stores in the zeroed record, with the year's offset. -/
def defaultStores (p : HostParams) (year : Byte) : List (Addr × Byte) :=
  [(0#7, 0x00#8), (1#7, 0xFF#8), (2#7, 0xFF#8), (3#7, 0xFF#8), (4#7, 0xFF#8), (5#7, 0xFF#8), (6#7, 0xFF#8), (7#7, 0x00#8),
   (8#7, hiByte (mfgValue p.mfgPlaceholder.1 p.mfgPlaceholder.2.1 p.mfgPlaceholder.2.2)),
   (9#7, loByte (mfgValue p.mfgPlaceholder.1 p.mfgPlaceholder.2.1 p.mfgPlaceholder.2.2)),
   (18#7, 0x01#8), (19#7, 0x03#8), (20#7, p.inputTypeDefault), (21#7, 52#8), (22#7, 30#8), (23#7, 0x78#8),
   (24#7, p.featuresDefault), (17#7, year),
   (35#7, establishedByte p.established 0), (36#7, establishedByte p.established 1), (37#7, establishedByte p.established 2),
   (38#7, 0xD1#8), (39#7, stByte1 60#8 p.aspect16x9), (40#7, 0x81#8), (41#7, stByte1 60#8 p.aspect16x9),
   (42#7, 0x61#8), (43#7, stByte1 60#8 p.aspect4x3), (44#7, 0x45#8), (45#7, stByte1 60#8 p.aspect4x3),
   (46#7, 0x31#8), (47#7, stByte1 60#8 p.aspect4x3),
   (48#7, 0x01#8), (49#7, 0x01#8), (50#7, 0x01#8), (51#7, 0x01#8), (52#7, 0x01#8), (53#7, 0x01#8)]

theorem storesOfLines_defaultInit {p : HostParams} {lines : List AsmLine} (h : defaultInit p = .ok lines) :
    ∃ year : Byte, year.toNat + 1990 = p.currentYear ∧
      storesOfLines lines = some (recAddrs.map (fun a => (a, 0x00#8)) ++ defaultStores p year) := by
  cases hy : yearOffset p.currentYear with
  | error stop => simp [defaultInit, hy, bind, Except.bind] at h
  | ok year =>
    refine ⟨year, yearOffset_eq_ok hy, ?_⟩
    simp only [defaultInit, hy] at h
    cases h
    simp only [storesOfLines, asmHdr, List.cons_append, List.nil_append, assemble, fitField_toNat]
    rfl

/-- The record default initialization leaves: the bytes stored, and 0 elsewhere. -/
def defaultRecord (p : HostParams) (year : Byte) (a : Addr) : Byte := ((defaultStores p year).reverse.lookup a).getD 0x00#8

/-- `clr` as byte writes leaves 0 everywhere, so what is stored after it decides the record. -/
theorem lookup_clr_then_stores (writes : List (Addr × Byte)) (s : State) (a : Addr) :
    ((recAddrs.map (fun a => (a, 0x00#8)) ++ writes).reverse.lookup a).or (s.byteAt a) =
      some ((writes.reverse.lookup a).getD 0x00#8) := by
  have hclr : ((recAddrs.map fun a => (a, 0x00#8)).reverse.lookup a).or (s.byteAt a) = some 0x00#8 := by
    rw [← State.writeBytes_byteAt, ← bodyOf_of_storesOf (i := .clr) rfl]
    exact s.clearRecord_byteAt a
  rw [List.reverse_append, List.lookup_append, Option.or_assoc, hclr, Option.or_some]

theorem run_defaultInit {p : HostParams} {lines : List AsmLine} (h : defaultInit p = .ok lines) (s : State) :
    ∃ ws year, assembleAll lines = some ws ∧ year.toNat + 1990 = p.currentYear ∧ (runAfterReset s ws).1.faulted = false ∧
      ∀ a, (runAfterReset s ws).1.byteAt a = some (defaultRecord p year a) := by
  obtain ⟨year, hyear, hstores⟩ := storesOfLines_defaultInit h
  obtain ⟨ws, hws, hrun⟩ := run_of_storesOfLines hstores
  obtain ⟨hf, hbytes⟩ := hrun s.hostReset s.hostReset_faulted
  exact ⟨ws, year, hws, hyear, hf, fun a => (hbytes a).trans (lookup_clr_then_stores _ _ a)⟩

theorem mfgValue_eq_append (l1 l2 l3 : BitVec 5) : mfgValue l1 l2 l3 = 0#1 ++ l1 ++ l2 ++ l3 := by
  apply BitVec.eq_of_toNat_eq
  rw [mfgValue_toNat, toNat_append_eq_add, toNat_append_eq_add, toNat_append_eq_add, show (0#1).toNat = 0 from rfl]
  omega

/-- 60 Hz is the offset 0 (41_standard_timing.md R90). -/
theorem stByte1_sixty : ∀ aspect : BitVec 2, stByte1 60#8 aspect = aspect ++ 0#6 := by
  decide

theorem defaultStores_addr (p : HostParams) (year : Byte) : ∀ q ∈ defaultStores p year,
    q.1.toNat < 10 ∨ 17 ≤ q.1.toNat ∧ q.1.toNat ≤ 24 ∨ 35 ≤ q.1.toNat ∧ q.1.toNat ≤ 53 := by
  simp [defaultStores]

theorem defaultRecord_zero (p : HostParams) (year : Byte) (a : Addr)
    (h : 10 ≤ a.toNat ∧ a.toNat ≤ 16 ∨ 25 ≤ a.toNat ∧ a.toNat ≤ 34 ∨ 54 ≤ a.toNat) : defaultRecord p year a = 0x00#8 := by
  have hnone : (defaultStores p year).reverse.lookup a = none := by
    refine List.lookup_eq_none_iff.2 fun q hq => bne_iff_ne.2 ?_
    rintro rfl
    have := defaultStores_addr p year q (List.mem_reverse.1 hq)
    omega
  rw [defaultRecord, hnone, Option.getD_none]

/-- Settles O59: the run leaves `defaultRecord`, whose bytes at the addresses R130 names are evaluated one by one. -/
theorem defaultInitialization : Obligations.DefaultInitialization := by
  intro p s lines h
  obtain ⟨ws, year, hws, hyear, hf, hbytes⟩ := run_defaultInit h s
  refine ⟨ws, _, year, hws, rfl, hf, fun a _ => ?_, ?_⟩
  · rw [hbytes]
    exact Option.some_ne_none _
  simp only [hbytes, ← stByte1_sixty, ← mfgValue_eq_append]
  refine ⟨rfl, ⟨rfl, rfl⟩, ⟨rfl, hyear⟩, rfl, fun k => ⟨establishedByte p.established k, ?_, establishedByte_getLsbD _ k⟩, rfl,
    fun a ha => ?_⟩
  · match k with
    | 0 => rfl
    | 1 => rfl
    | 2 => rfl
  · rw [defaultRecord_zero p year a ha]

end Sys2Proof.Machine

/-! SUPPORT. Proofs for 60_exceptions.md: fault entry and its effect, which condition STATUS records, and the fault state along a run. -/

namespace Sys2Proof.Machine

/-! A word given next, reserved or not. -/

theorem step_giveCommand_of_decode {w : CmdWord} {i : Instr} (h : decode w = .ok i) (s : State) : step (s.giveCommand w) = exec i s :=
  step_of_decode (s := s.giveCommand w) rfl h

theorem step_giveCommand_of_reject {w : CmdWord} {r : Reserved} (h : decode w = .error r) (s : State) :
    step (s.giveCommand w) = .next s.illegalCommand := by
  rw [step_command (s := s.giveCommand w) rfl, h]
  rfl

/-! Fault entry (R141). -/

/-- The state after a command or a reserved word that takes a fault. -/
def State.faultEntry (s : State) (c : Cause) : State := (s.quiet.raise c).advance

theorem State.faultEntry_status (s : State) (c : Cause) : (s.faultEntry c).status = faultStatus c := rfl

theorem State.faultEntry_effect (s : State) (c : Cause) :
    (s.faultEntry c).faulted = true ∧ (s.faultEntry c).cause = causeCode c ∧ (∀ a, (s.faultEntry c).byteAt a = s.byteAt a) ∧
      (s.faultEntry c).acc = s.acc ∧ (s.faultEntry c).resp = none := by
  simp [State.faultEntry]

/-- Out of the fault state a reserved word raises ILLEGAL_CMD (R142). -/
theorem step_giveCommand_of_reservedWord {s : State} (hf : s.faulted = false) {w : CmdWord} (hw : reservedWord w) :
    step (s.giveCommand w) = .next (s.faultEntry .illegalCmd) := by
  obtain ⟨r, hr⟩ := (rejectedWordsAreTheReservedWords w).2 hw
  rw [step_giveCommand_of_reject hr, illegalCommand_unfaulted hf, State.faultEntry]

/-! Which condition STATUS records (R140). -/

theorem faultStatus_injective {c c' : Cause} (h : faultStatus c = faultStatus c') : c = c' := by
  revert h
  cases c <;> cases c' <;> decide

/-- A fault's STATUS has FAULT 1. -/
theorem State.status_ne_faultStatus {s : State} (hf : s.faulted = false) (c : Cause) : s.status ≠ faultStatus c := by
  intro h
  have hfault : s.faulted = true := (State.faulted_of_status (s := s.raise c) h).trans (s.raise_faulted c)
  rw [hf] at hfault
  cases hfault

section Unfaulted
variable {s : State} (hf : s.faulted = false)
include hf

/-- STATUS after a command: that of the fault condition the command meets, or as it was. -/
theorem exec_status (i : Instr) : ∃ t, exec i s = .next t ∧ t.status = (faultOf i).elim s.status faultStatus := by
  refine ⟨_, exec_unfaulted hf i, ?_⟩
  cases hc : faultOf i with
  | none => exact bodyOf_status_of_no_fault hc s.quiet
  | some c => rw [bodyOf_of_fault hc]; rfl

/-- A command records a cause exactly when that is the condition it meets. -/
theorem exec_records_iff (i : Instr) (c : Cause) : ∃ t, exec i s = .next t ∧ (t.status = faultStatus c ↔ faultOf i = some c) := by
  obtain ⟨t, ht, hstatus⟩ := exec_status hf i
  refine ⟨t, ht, ?_⟩
  rw [hstatus]
  cases faultOf i with
  | none => exact iff_of_false (State.status_ne_faultStatus hf c) nofun
  | some d => exact ⟨fun h => congrArg some (faultStatus_injective h), fun h => congrArg faultStatus (Option.some.inj h)⟩

end Unfaulted

/-! The commands that can meet each operand condition (R143 to R145). -/

theorem faultOf_stSet_eq_hsizeRange_iff (slot : BitVec 3) (hsize : BitVec 12) (vfreq : BitVec 8) (aspect : BitVec 2) :
    faultOf (.stSet slot hsize vfreq aspect) = some .hsizeRange ↔ hsize.toNat < 256 ∨ 2288 < hsize.toNat := by
  rw [faultOf]
  split
  · simp [*]
  · split <;> simp [*]

theorem faultOf_stSet_eq_vfreqRange_iff {hsize : BitVec 12} (hmin : 256 ≤ hsize.toNat) (hmax : hsize.toNat ≤ 2288)
    (slot : BitVec 3) (vfreq : BitVec 8) (aspect : BitVec 2) :
    faultOf (.stSet slot hsize vfreq aspect) = some .vfreqRange ↔ vfreq.toNat < 60 ∨ 123 < vfreq.toNat := by
  have hin : ¬ (hsize.toNat < 256 ∨ 2288 < hsize.toNat) := by omega
  rw [faultOf, if_neg hin]
  split <;> simp [*]

theorem faultOf_gamma_eq_gammaRange_iff (g : BitVec 16) :
    faultOf (.gamma g) = some .gammaRange ↔ (g.toNat + 5) / 10 < 100 ∨ 354 < (g.toNat + 5) / 10 := by
  rw [faultOf]
  split <;> simp [*]

/-- GAMMA_RANGE is met by `gamma` alone. -/
theorem eq_gamma_of_faultOf {i : Instr} (h : faultOf i = some .gammaRange) : ∃ g, i = .gamma g := by
  cases i with
  | gamma g => exact ⟨g, rfl⟩
  | clr | stb | ldb | stUnset | mfg | csum => cases h
  | stSet | rdsr =>
    rw [faultOf] at h
    split_ifs at h
    all_goals cases h

/-! The fault state: what a word does in it (R146). -/

/-- The words of `rdsr` are two, since `csr` is 0 or 1 (30_encoding.md R67). -/
theorem eq_of_decode_rdsr {w : CmdWord} {csr : BitVec 8} (h : decode w = .ok (.rdsr csr)) : w = 0x90000000#32 ∨ w = 0x90000001#32 := by
  obtain ⟨hwf, rfl⟩ := encodeOfDecode w _ h
  have hlt : csr.toNat < 2 := of_decide_eq_true hwf
  have hcsr : csr = 0#8 ∨ csr = 1#8 := by bv_omega
  obtain rfl | rfl := hcsr
  · exact .inl rfl
  · exact .inr rfl

/-- A word other than the two of `rdsr` is ignored. -/
theorem step_giveCommand_ignored {s : State} (hf : s.faulted = true) {w : CmdWord} (hstatus : w ≠ 0x90000000#32) (hacc : w ≠ 0x90000001#32) :
    step (s.giveCommand w) = .next s.quiet.advance := by
  cases hd : decode w with
  | error r => rw [step_giveCommand_of_reject hd, illegalCommand_faulted hf]
  | ok i =>
    rw [step_giveCommand_of_decode hd, exec_faulted hf]
    split
    next csr => exact absurd (eq_of_decode_rdsr hd) (not_or.2 ⟨hstatus, hacc⟩)
    next => rfl

/-- The whole step on a word in the fault state: the response port and the index. -/
theorem step_giveCommand_faulted {s : State} (hf : s.faulted = true) (w : CmdWord) :
    step (s.giveCommand w) = .next { s with
      resp := if w = 0x90000000#32 then some (readStatus s.status) else if w = 0x90000001#32 then some s.acc else none
      index := s.index + 1 } := by
  split_ifs with hstatus hacc
  · have hd : decode w = .ok (.rdsr 0#8) := hstatus ▸ rfl
    rw [step_giveCommand_of_decode hd, exec_rdsr rfl]
    rfl
  · have hd : decode w = .ok (.rdsr 1#8) := hacc ▸ rfl
    rw [step_giveCommand_of_decode hd, exec_rdsr rfl]
    rfl
  · rw [step_giveCommand_ignored hf hstatus hacc, State.quiet_advance]

/-! The fault state along a run (R146, R149). -/

/-- `u` has the record, STATUS and ACC of `s`, all the state the spec gives the block (10_state.md R23). -/
structure State.SameBlock (s u : State) : Prop where
  mem : u.mem = s.mem
  status : u.status = s.status
  acc : u.acc = s.acc

theorem State.SameBlock.refl (s : State) : s.SameBlock s := ⟨rfl, rfl, rfl⟩

theorem State.SameBlock.trans {s t u : State} (h : s.SameBlock t) (k : t.SameBlock u) : s.SameBlock u :=
  ⟨k.mem.trans h.mem, k.status.trans h.status, k.acc.trans h.acc⟩

theorem State.SameBlock.faulted {s u : State} (h : s.SameBlock u) : u.faulted = s.faulted := State.faulted_of_status h.status

/-- A step in the fault state took a reset or changed nothing of the block. -/
theorem step_faulted_effect {s t : State} (hf : s.faulted = true) (h : step s = .next t) :
    (∃ rest, s.inputs = .reset :: rest) ∨ s.SameBlock t := by
  cases stepEffect_of_step h with
  | unchanged mem status acc => exact .inr ⟨mem, status, acc⟩
  | reset rest inputs eq => exact .inl ⟨rest, inputs⟩
  | fault unfaulted | performed unfaulted =>
    rw [hf] at unfaulted
    cases unfaulted

theorem State.illegalCommand_inputs (s : State) : s.illegalCommand.inputs = s.inputs := by
  cases hf : s.faulted with
  | false => rw [illegalCommand_unfaulted hf]; rfl
  | true => rw [illegalCommand_faulted hf]; rfl

/-- A step takes the host's next input, if there is one, and leaves the others (log 1). -/
theorem step_inputs {s t : State} (h : step s = .next t) : t.inputs = s.inputs.tail := by
  obtain ⟨hin, rfl⟩ | ⟨rest, hin, rfl⟩ | ⟨w, rest, r, hin, -, rfl⟩ | ⟨w, rest, i, hin, -, he⟩ := step_cases h
  · rw [State.wait, State.quiet_inputs, hin, List.tail_nil]
  · rw [State.hostReset_inputs, hin, List.tail_cons]
  · rw [State.illegalCommand_inputs, hin, List.tail_cons]
  · obtain ⟨u, hu, -, hinputs⟩ := everyCommandAdvancesTheIndex i { s with inputs := rest }
    cases he.symm.trans hu
    rw [hinputs, hin, List.tail_cons]

theorem core_run_succ_of_step {s t : State} (h : step s = .next t) (k : Nat) : core.run (k + 1) s = core.run k t := by
  have hcore : core.step s = .next t := h
  simp only [Host.Core.run, hcore]

/-- What every step keeps, a run of any length keeps. -/
theorem core_run_keeps {P : State → Prop} (hkeeps : ∀ s t, P s → step s = .next t → P t) (k : Nat) {s : State} (hs : P s) :
    ∃ t, core.run k s = .next t ∧ P t := by
  induction k generalizing s with
  | zero => exact ⟨s, rfl, hs⟩
  | succ k ih =>
    obtain ⟨u, hu⟩ := step_answers_next s
    rw [core_run_succ_of_step hu]
    exact ih (hkeeps s u hs hu)

/-- `u` is the faulted block of `s`, and no reset is to come. -/
structure State.StuckAs (s u : State) : Prop where
  faulted : u.faulted = true
  sameBlock : s.SameBlock u
  noReset : ∀ e ∈ u.inputs, e ≠ Input.reset

theorem step_keeps_stuckAs (s u t : State) (h : s.StuckAs u) (ht : step u = .next t) : s.StuckAs t := by
  obtain ⟨rest, hin⟩ | hsame := step_faulted_effect h.faulted ht
  · exact absurd rfl (h.noReset .reset (hin ▸ List.mem_cons_self))
  · refine ⟨hsame.faulted.trans h.faulted, h.sameBlock.trans hsame, fun e he => ?_⟩
    rw [step_inputs ht] at he
    exact h.noReset e (List.mem_of_mem_tail he)

/-! The obligations. -/

/-- Settles O13: a command that meets a condition and a reserved word both do fault entry and nothing else. -/
theorem faultEntryWritesStatusOnly : Obligations.FaultEntryWritesStatusOnly :=
  ⟨fun s _ c hf hc => ⟨_, exec_of_fault hf hc, s.faultEntry_effect c⟩,
    fun s _ hf hw => ⟨_, step_giveCommand_of_reservedWord hf hw, s.faultEntry_effect .illegalCmd⟩⟩

/-- Settles O14: fault entry with cause 1, whose STATUS is 0x03. -/
theorem reservedWordRaisesIllegalCmd : Obligations.ReservedWordRaisesIllegalCmd :=
  fun s _ hf hw => ⟨_, step_giveCommand_of_reservedWord hf hw, s.faultEntry_status .illegalCmd⟩

/-- Settles O16: 0x05 is the STATUS of HSIZE_RANGE, the condition `st.set` meets when the size is out of range. -/
theorem stSetRaisesHsizeRange : Obligations.StSetRaisesHsizeRange := by
  intro s slot hsize vfreq aspect hf
  obtain ⟨t, ht, hrecords⟩ := exec_records_iff hf (.stSet slot hsize vfreq aspect) .hsizeRange
  exact ⟨t, ht, hrecords.trans (faultOf_stSet_eq_hsizeRange_iff slot hsize vfreq aspect)⟩

/-- Settles O17: 0x07 is the STATUS of VFREQ_RANGE, the condition `st.set` meets when only the rate is out of range. -/
theorem stSetRaisesVfreqRange : Obligations.StSetRaisesVfreqRange := by
  intro s slot hsize vfreq aspect hf hmin hmax
  obtain ⟨t, ht, hrecords⟩ := exec_records_iff hf (.stSet slot hsize vfreq aspect) .vfreqRange
  exact ⟨t, ht, hrecords.trans (faultOf_stSet_eq_vfreqRange_iff hmin hmax slot vfreq aspect)⟩

/-- Settles O18: a reserved word is O14; the chain of conditions of `st.set` is that of `faultOf`; and 0x09 is the STATUS of GAMMA_RANGE. -/
theorem conditionsInPriorityOrder : Obligations.ConditionsInPriorityOrder := by
  refine ⟨reservedWordRaisesIllegalCmd, fun s slot hsize vfreq aspect hf => ?_, fun s t i hf ht hstatus => ?_⟩
  · obtain ⟨t, ht, hstatus⟩ := exec_status hf (.stSet slot hsize vfreq aspect)
    refine ⟨t, ht, hstatus.trans ?_⟩
    rw [faultOf]
    split_ifs <;> rfl
  · obtain ⟨u, hu, hrecords⟩ := exec_records_iff hf i .gammaRange
    cases ht.symm.trans hu
    exact eq_gamma_of_faultOf (hrecords.1 hstatus)

/-- Settles O19: 0x09 is the STATUS of GAMMA_RANGE, the condition `gamma` meets when the rounded hundredths are out of range. -/
theorem gammaRaisesGammaRange : Obligations.GammaRaisesGammaRange := by
  intro s g hf
  obtain ⟨t, ht, hrecords⟩ := exec_records_iff hf (.gamma g) .gammaRange
  exact ⟨t, ht, hrecords.trans (faultOf_gamma_eq_gammaRange_iff g)⟩

/-- Settles O20: the equation of a word in the fault state, and that of a reset. -/
theorem faultStateIgnoresAllButRdsr : Obligations.FaultStateIgnoresAllButRdsr :=
  ⟨fun _ w hf => ⟨_, step_giveCommand_faulted hf w, fun _ => rfl, rfl, rfl, rfl⟩,
    fun _ _ _ hin => ⟨_, step_reset hin, State.hostReset_faulted _⟩⟩

/-- Settles O21: a step that took no reset leaves STATUS, and FAULT with it. -/
theorem faultStateLeftOnlyByReset : Obligations.FaultStateLeftOnlyByReset := by
  intro s t hf h ht
  refine (step_faulted_effect hf h).resolve_right fun hsame => ?_
  rw [hsame.faulted, hf] at ht
  cases ht

/-- Settles O22, by induction on the number of steps: each keeps `StuckAs`. -/
theorem faultStateAbsorbsEveryRun : Obligations.FaultStateAbsorbsEveryRun := by
  intro k s hf hno
  obtain ⟨t, ht, hstuck⟩ := core_run_keeps (step_keeps_stuckAs s) k ⟨hf, .refl s, hno⟩
  obtain ⟨hmem, hstatus, hacc⟩ := hstuck.sameBlock
  exact ⟨t, ht, hstuck.faulted, hstatus, hacc, State.byteAt_of_mem hmem⟩

end Sys2Proof.Machine

/-! SUPPORT. Proofs for 70_reset_and_hazards.md: commands that may be reordered, and the end of a run, its `dump` and its result. -/

namespace Sys2Proof.Machine

/-! Commands in another order (R166). -/

/-- The state after a command that is not ignored. -/
def State.after (s : State) (i : Instr) : State := (bodyOf i s.quiet).advance

theorem exec_eq_after {s : State} (hf : s.faulted = false) (i : Instr) : exec i s = .next (s.after i) := exec_unfaulted hf i

theorem State.after_status {i : Instr} (hc : faultOf i = none) (s : State) : (s.after i).status = s.status :=
  bodyOf_status_of_no_fault hc s.quiet

theorem State.after_faulted {i : Instr} (hc : faultOf i = none) (s : State) : (s.after i).faulted = s.faulted :=
  State.faulted_of_status (State.after_status hc s)

/-- A command that reads nothing is not `csum`, so it leaves ACC. -/
theorem State.after_acc_of_reads_none {i : Instr} (hreads : ∀ a, ¬ readsFrom i a) (s : State) : (s.after i).acc = s.acc := by
  have hi : i ≠ .csum := by
    rintro rfl
    exact hreads 0#7 (show (0#7 : Addr).toNat < 127 by decide)
  exact bodyOf_acc_of_ne_csum hi s.quiet

theorem State.after_byteAt_of_not_writesTo {i : Instr} {a : Addr} (hw : ¬ writesTo i a) (s : State) :
    (s.after i).byteAt a = s.byteAt a :=
  bodyOf_byteAt_of_not_writesTo hw s.quiet

theorem State.after_byteAt_congr {i : Instr} (hreads : ∀ a, ¬ readsFrom i a) {s t : State} {a : Addr} (h : t.byteAt a = s.byteAt a) :
    (t.after i).byteAt a = (s.after i).byteAt a :=
  bodyOf_byteAt_congr (s := s.quiet) (t := t.quiet) (fun b hb => absurd hb (hreads b)) h

/-- In a byte that `j` does not write, what `i` leaves there stands, whether `j` comes before it or after. -/
theorem State.after_comm_byteAt {i j : Instr} (hreads : ∀ a, ¬ readsFrom i a) {a : Addr} (hw : ¬ writesTo j a) (s : State) :
    ((s.after j).after i).byteAt a = ((s.after i).after j).byteAt a :=
  calc ((s.after j).after i).byteAt a = (s.after i).byteAt a :=
        State.after_byteAt_congr hreads (State.after_byteAt_of_not_writesTo hw s)
    _ = ((s.after i).after j).byteAt a := (State.after_byteAt_of_not_writesTo hw _).symm

theorem execAll_pair {s : State} {i : Instr} (hf : s.faulted = false) (hc : faultOf i = none) (j : Instr) :
    execAll [i, j] s = .next ((s.after i).after j) := by
  have hf' : (s.after i).faulted = false := (State.after_faulted hc s).trans hf
  rw [execAll_cons_of_next (exec_eq_after hf i), execAll_cons_of_next (exec_eq_after hf' j), execAll]

/-! One word of a run, as the command it encodes. -/

theorem performWord_encode {i : Instr} (hwf : i.wf = true) {s t : State} (h : exec i s = .next t) :
    performWord s (encode i) = (t, t.resp) := by
  rw [performWord, step_giveCommand_of_decode (decodeOfEncode i hwf), h]

/-! The `dump` of a record that has every byte written (R162, 30_encoding.md R73). -/

/-- A run of `ldb` words responds with the bytes held, in the order asked for, and takes no fault. -/
theorem runWords_ldbs {f : Addr → Byte} (l : List Addr) {s : State} (hf : s.faulted = false) (hbytes : ∀ a, s.byteAt a = some (f a)) :
    (runWords s (l.map fun a => encode (.ldb a))).1.faulted = false ∧
    (runWords s (l.map fun a => encode (.ldb a))).2 = l.map f := by
  induction l generalizing s with
  | nil => exact ⟨hf, rfl⟩
  | cons a rest ih =>
    have hread : s.readByte a = f a := State.readByte_of_byteAt (hbytes a)
    obtain ⟨hend, hresp⟩ := ih (s := (s.quiet.respond (s.readByte a)).advance) hf hbytes
    rw [List.map_cons, runWords_cons, performWord_encode rfl (exec_ldb hf a)]
    refine ⟨hend, ?_⟩
    rw [hresp, State.advance_resp, State.respond_resp, hread, Option.toList_some, List.singleton_append, List.map_cons]

theorem State.byteAt_eq_readByte {s : State} (hwritten : s.writtenBelow 128) (a : Addr) : s.byteAt a = some (s.readByte a) := by
  obtain ⟨v, hv⟩ := Option.ne_none_iff_exists'.1 (hwritten a a.isLt)
  rw [hv, State.readByte_of_byteAt hv]

/-- The record's 128 bytes in address order, as a command given now reads them. -/
def State.recordBytes (s : State) : List Byte := recAddrs.map s.readByte

theorem State.recordBytes_length (s : State) : s.recordBytes.length = 128 := by
  rw [State.recordBytes, List.length_map, recAddrs, List.length_map, List.length_range, recBytes]

theorem recAddrs_getElem? (a : Addr) : recAddrs[a.toNat]? = some a := by
  rw [recAddrs, List.getElem?_map, List.getElem?_range (show a.toNat < recBytes from a.isLt), Option.map_some, BitVec.ofNat_toNat, BitVec.setWidth_eq]

theorem State.recordBytes_getElem? (s : State) (a : Addr) : s.recordBytes[a.toNat]? = some (s.readByte a) := by
  rw [State.recordBytes, List.getElem?_map, recAddrs_getElem?, Option.map_some]

theorem State.recordBytes_sum (s : State) : (s.recordBytes.map BitVec.toNat).sum = s.byteSum 128 := by
  rw [State.recordBytes, List.map_map, recAddrs, List.map_map]
  rfl

/-! The end of a run and its result (R168). -/

/-- Settles O52: no word touches the inputs, and a word that leaves FAULT 0 has the response byte it asks for. -/
theorem runEndsWellUnlessItFaults : Obligations.RunEndsWellUnlessItFaults := by
  intro s ws hin
  refine ⟨fun ⟨_, hf, _⟩ => hf, fun hf => ⟨?_, hf, runWords_responds hf⟩⟩
  exact (runWords_inputs s.hostReset ws).trans hin

theorem runAfterReset_append (s : State) (a b : List CmdWord) :
    runAfterReset s (a ++ b) =
      ((runWords (runAfterReset s a).1 b).1, (runAfterReset s a).2 ++ (runWords (runAfterReset s a).1 b).2) :=
  runWords_append s.hostReset a b

section Build
variable {s : State} {build : List CmdWord} (hin : s.inputs = []) (hf : (runAfterReset s build).1.faulted = false)

include hin hf in
/-- A `dump` of a record that is built and wholly written ends the run well, and its last 128 response bytes are the record. -/
theorem runResult_append_dumpWords (hwritten : (runAfterReset s build).1.writtenBelow 128) :
    runResult s (build ++ dumpWords) = some (runAfterReset s build).1.recordBytes := by
  obtain ⟨hend, hresp⟩ : (runWords (runAfterReset s build).1 dumpWords).1.faulted = false ∧
      (runWords (runAfterReset s build).1 dumpWords).2 = (runAfterReset s build).1.recordBytes :=
    runWords_ldbs recAddrs hf (State.byteAt_eq_readByte hwritten)
  have hrun := runAfterReset_append s build dumpWords
  rw [hresp] at hrun
  have hwell : runEndedWell s (build ++ dumpWords) := by
    refine (runEndsWellUnlessItFaults s _ hin).2 ?_
    rw [hrun]
    exact hend
  rw [runResult, if_pos ⟨List.suffix_append build dumpWords, hwell⟩, hrun, List.length_append, State.recordBytes_length,
    Nat.add_sub_cancel, List.drop_left]

include hf in
theorem runAfterReset_append_csum : (runAfterReset s (build ++ [encode .csum])).1 = (runAfterReset s build).1.finalize := by
  rw [runAfterReset_append, runWords_cons, performWord_encode rfl (exec_csum hf), runWords]

end Build

/-! The obligations. -/

/-- Settles O7: the equation of a step without input. -/
theorem stepWaitsWithoutInput : Obligations.StepWaitsWithoutInput := fun _ => step_wait

/-- Settles O10: the equation of a step that takes a reset; every field after it is given. -/
theorem hostResetEffect : Obligations.HostResetEffect :=
  fun _ _ hin => ⟨_, step_reset hin, rfl, State.hostReset_faulted _, rfl, fun _ => rfl, rfl, rfl, rfl⟩

/-- Settles O51: neither command touches STATUS or ACC, and each byte is written by one of them at most, so the other leaves it. -/
theorem disjointCommandsCommute : Obligations.DisjointCommandsCommute := by
  intro s i j hf hci hcj hri hrj hdisjoint
  refine ⟨_, _, execAll_pair hf hci j, execAll_pair hf hcj i, ?_, ?_, fun a => ?_⟩
  · rw [State.after_status hci, State.after_status hcj, State.after_status hcj, State.after_status hci]
  · rw [State.after_acc_of_reads_none hri, State.after_acc_of_reads_none hrj, State.after_acc_of_reads_none hrj,
      State.after_acc_of_reads_none hri]
  · by_cases hj : writesTo j a
    · have hi : ¬ writesTo i a := fun hi => hdisjoint a ⟨hi, hj⟩
      exact (State.after_comm_byteAt hrj hi s).symm
    · exact State.after_comm_byteAt hri hj s

/-- Settles O53: the result is the list of the record's bytes, and each of them has been written. -/
theorem runResultIsTheRecord : Obligations.RunResultIsTheRecord := by
  intro s build hin hf hwritten
  refine ⟨_, runResult_append_dumpWords hin hf hwritten, State.recordBytes_length _, fun a => ?_⟩
  rw [State.recordBytes_getElem?, State.byteAt_eq_readByte hwritten]

/-- Settles O54: the run up to the `dump` ends in the finalized record, whose bytes sum to 0 modulo 256. -/
theorem finalizedRunResultSumsToZero : Obligations.FinalizedRunResultSumsToZero := by
  intro s build hin hf hwritten
  have hrun := runAfterReset_append_csum hf
  refine ⟨(runAfterReset s build).1.finalize.recordBytes, ?_, State.recordBytes_length _, ?_⟩
  · rw [runResult_append_dumpWords hin (hrun ▸ hf) (hrun ▸ State.finalize_writtenBelow hwritten), hrun]
  · rw [State.recordBytes_sum, State.finalize_byteSum hwritten, State.byteSum_add_checksumByte]

end Sys2Proof.Machine
